-- ==== Sys2Proof/Word.lean ====
section
/-!
DEFINITION. Word.lean: the word type and its plainest helpers.
-/

namespace Sys2Proof

/-- A register value: an unsigned 32-bit number (00_scope.md R5 `W`, 10_state.md R10). -/
abbrev Word := BitVec 32

/-- An 8-bit value: a byte offset in the register window, an error code, a byte of a stream. -/
abbrev Byte := BitVec 8

/-- The word with the single bit `k` set. -/
def Word.bit (k : Nat) : Word := 1#32 <<< k

end Sys2Proof
end

