-- ==== Sys2Proof/Syntax.lean ====
section
/-!
DEFINITION. Syntax.lean: the instruction set, one constructor per row of spec/opcode_table.json.
-/

namespace Sys2Proof

/-- The commands (30_encoding.md R61). Every command names its operands implicitly (R60, R63), so no constructor has an
argument. -/
inductive Instr where
  /-- `NOP`, 45_system.md R160 -/
  | nop
  /-- `MODPOW`, 40_number_theory.md R83 -/
  | modpow
  /-- `MODINV`, 40_number_theory.md R85 -/
  | modinv
  /-- `QRTEST`, 42_permutation.md R116 -/
  | qrtest
  /-- `PRED`, 43_predicate.md R131 -/
  | pred
  /-- `KEYLOAD.a`, 41_trapdoor_key.md R101 with `v = 0` -/
  | keyloadA
  /-- `KEYLOAD.b`, 41_trapdoor_key.md R101 with `v = 1` -/
  | keyloadB
  /-- `PFWD`, 42_permutation.md R111 -/
  | pfwd
  /-- `PINV`, 42_permutation.md R114 -/
  | pinv
  /-- `ENCODE`, 44_codec.md R136 -/
  | encode
  /-- `DECODE`, 44_codec.md R138 -/
  | decode
  /-- `SRESET`, 45_system.md R161 -/
  | sreset
  deriving DecidableEq, Repr

end Sys2Proof
end

