-- ==== Sys2Proof/WellFormed.lean ====
section
/-!
DEFINITION. WellFormed.lean: when a command word and an instruction are well formed (30_encoding.md R60, R64).
A constructor of `Instr` carries no operand, so what can be ill formed is a command WORD: its three fields are checked
here, one check per clause of R64, independently of the decoder.
-/

namespace Sys2Proof

/-- The three fields of format `C` (30_encoding.md R60). -/
structure CommandFields where
  /-- bits 31:9 -/
  zero : BitVec 23
  /-- bit 8 -/
  var : Bool
  /-- bits 7:0 -/
  op : Byte
  deriving DecidableEq, Repr

/-- The `OP` values in the opcode map (30_encoding.md R61). -/
def assignedOps : List Byte :=
  [0x00#8, 0x01#8, 0x02#8, 0x03#8, 0x04#8, 0x08#8, 0x10#8, 0x11#8, 0x20#8, 0x21#8, 0x7F#8]

/-- Bits 31:9 "must be 0" (R60). -/
def CommandFields.zeroOk (f : CommandFields) : Bool := f.zero == 0#23

/-- The `OP` field is in the map (R64). -/
def CommandFields.opOk (f : CommandFields) : Bool := assignedOps.contains f.op

/-- `VAR` is meaningful for `KEYLOAD` only and "must be 0 in every other command" (R60). -/
def CommandFields.varOk (f : CommandFields) : Bool := !f.var || f.op == 0x08#8

/-- A legal command word, by its fields (R64). -/
def CommandFields.wellFormed (f : CommandFields) : Bool := f.zeroOk && f.opOk && f.varOk

/-- The fields of a command word. -/
def commandFields (w : Word) : CommandFields where
  zero := w.extractLsb' 9 23
  var := w.getLsbD 8
  op := w.extractLsb' 0 8

/-- An instruction as syntax is well formed: no constructor has an operand that could be out of range (R60, R63). -/
def Instr.wellFormed : Instr → Bool
  | .nop | .modpow | .modinv | .qrtest | .pred | .keyloadA | .keyloadB
  | .pfwd | .pinv | .encode | .decode | .sreset => true

end Sys2Proof
end

