-- ==== Sys2Proof/Decode.lean ====
section
/-!
DEFINITION. Decode.lean: the decoder of command words, total, rejecting by name, and after it the encoder
(30_encoding.md R60, R61, R64).
-/

namespace Sys2Proof

/-- Why a word is no legal command word (30_encoding.md R64). The block does not record which: each of them raises
`IllegalCommand` (60_exceptions.md R188). -/
inductive DecodeError where
  /-- a non-zero bit in 31:9 -/
  | zeroField
  /-- an `OP` that is not in the map -/
  | unassignedOp
  /-- `VAR = 1` with an `OP` other than 0x08 -/
  | variantBit
  deriving DecidableEq, Repr

/-- The command that the fields `OP` and `VAR` select (30_encoding.md R61). -/
def decodeOp (op : Byte) (var : Bool) : Except DecodeError Instr :=
  if op = 0x08#8 then .ok (if var then .keyloadB else .keyloadA)
  else if ¬ assignedOps.contains op then .error .unassignedOp
  else if var then .error .variantBit
  else if op = 0x00#8 then .ok .nop
  else if op = 0x01#8 then .ok .modpow
  else if op = 0x02#8 then .ok .modinv
  else if op = 0x03#8 then .ok .qrtest
  else if op = 0x04#8 then .ok .pred
  else if op = 0x10#8 then .ok .pfwd
  else if op = 0x11#8 then .ok .pinv
  else if op = 0x20#8 then .ok .encode
  else if op = 0x21#8 then .ok .decode
  else if op = 0x7F#8 then .ok .sreset
  else .error .unassignedOp

/-- Decode a command word (30_encoding.md R60, R64). -/
def decodeWord (w : Word) : Except DecodeError Instr :=
  let f := commandFields w
  if f.zero = 0#23 then decodeOp f.op f.var else .error .zeroField

/-- The instruction's word as the number the opcode table numbers it: its `nbits` low bits, and zeros above. -/
def tableWord (nbits w : Nat) : Word := BitVec.ofNat 32 (w % 2 ^ nbits)

/-- What the decoder reads from an instruction whose bits are `w`, numbered as spec/opcode_table.json numbers them. A command
word crosses the port as one 32-bit number (20_memory.md R46), so there is one word and no byte order. -/
def decodeTableWord (nbits w : Nat) : Option Instr :=
  match decodeWord (tableWord nbits w) with
  | .ok i => some i
  | .error _ => none

/-! ## The encoder -/

/-- The `OP` field of a command (30_encoding.md R61). -/
def Instr.op : Instr → Byte
  | .nop => 0x00#8
  | .modpow => 0x01#8
  | .modinv => 0x02#8
  | .qrtest => 0x03#8
  | .pred => 0x04#8
  | .keyloadA => 0x08#8
  | .keyloadB => 0x08#8
  | .pfwd => 0x10#8
  | .pinv => 0x11#8
  | .encode => 0x20#8
  | .decode => 0x21#8
  | .sreset => 0x7F#8

/-- The `VAR` field of a command: set in `KEYLOAD.b` alone (30_encoding.md R60, R61). -/
def Instr.varBit : Instr → Bool
  | .keyloadB => true
  | .nop | .modpow | .modinv | .qrtest | .pred | .keyloadA
  | .pfwd | .pinv | .encode | .decode | .sreset => false

/-- The command word with given fields: `ZERO || VAR || OP` (30_encoding.md R60). -/
def CommandFields.word (f : CommandFields) : Word := (f.zero ++ BitVec.ofBool f.var) ++ f.op

/-- The word of a command (30_encoding.md R61). -/
def encode (i : Instr) : Word := CommandFields.word ⟨0#23, i.varBit, i.op⟩

end Sys2Proof
end

