-- ==== Sys2Proof/Config.lean ====
section
/-!
DEFINITION. Config.lean: what is fixed for the block (00_scope.md R5) and what the spec leaves open (R6).
A constant declared `opaque` has no value that a proof can see: a claim that mentions one holds for every value of it.
-/

namespace Sys2Proof.Config

/-! ## Fixed parameters (00_scope.md R5) -/

/-- `K`: predicate bits per codeword, the loop bound of `ENCODE` and of `DECODE` (44_codec.md R137). -/
def K : Nat := 32

/-- `NMAX`: exclusive upper bound of the modulus the key store accepts. -/
def nMax : Nat := 2 ^ 32

/-- `E_RESET`: reset value of the public exponent register. -/
def eReset : Word := 17#32

/-- `ID_VALUE`: the constant of the `ID` register (10_state.md R15). -/
def idValue : Word := 0x524F5801#32

/-- `WINDOW`: size in bytes of the register window. -/
def window : Nat := 256

/-! ## Open parameters (00_scope.md R6); `PORT_PROTOCOL` has no datum at transaction level (R8) -/

/-- Number of the window in the host's address space; `BASE` is this many windows (R6: a multiple of 256). -/
opaque windowIndex : Nat

/-- `BASE`: byte address of the register window (20_memory.md R40). -/
def base : Nat := window * windowIndex

/-- `LANE_ORDER`: the byte lane of the host bus that carries bits 7:0 of a register value. Nothing reads it: with only
32-bit accesses performed no access can observe it (20_memory.md R46). DESIGN CHOICE: it ranges over four lanes, those of a
32-bit register; the spec gives no width of the host bus (assumption log entry 18). -/
opaque laneOrder : Fin 4

/-- `INVFAIL_BIT`: the plaintext bit the host assigns to a block whose `DECODE` ended with `InversionFailed`. -/
opaque invfailBit : Bool

/-! ## Free values (DESIGN CHOICE, assumption log entries 11 and 13) -/

/-- What reducing `x` modulo zero gives. The spec says `mod` is never evaluated with a zero divisor (00_scope.md, notation;
40_number_theory.md R80), and no run reaches such a reduction: in the states where it would happen its value is free. -/
opaque reduceByZero : Nat → Word

/-- Host side only: the byte that the generator of `stretchKey` draws from a seed, less 32 (49_boundary_collaborators.md
R169 names no generator; the byte lies in `[32,255]`). -/
opaque stretchDraw : Word → Fin 224

/-- Host side only: where the index `i` of `stretchKey`'s sum starts (0 or 1 is not stated, 91_not_in_source.md N14). -/
opaque stretchIndexOrigin : Fin 2

end Sys2Proof.Config
end

