-- ==== Sys2Proof/Machine/Arith.lean ====
section
/-!
DEFINITION. Machine/Arith.lean: the functions `mulmod`, `modpow`, `modinv` (40_number_theory.md R80 to R84).
Operands are turned into exact numbers, the result is formed exactly and narrowed once (R80: no operation wraps).
-/

namespace Sys2Proof.Machine

/-- `x mod m` as a 32-bit value, for an exact non-negative `x`. The spec never reduces modulo zero (40_number_theory.md R80);
there the value is free (assumption log entry 11). -/
def reduce (x : Nat) (m : Word) : Word :=
  if m = 0#32 then Config.reduceByZero x else BitVec.ofNat 32 (x % m.toNat)

/-- `mulmod(a, b, m)` (40_number_theory.md R81). -/
def mulmod (a b m : Word) : Word := reduce (a.toNat * b.toNat) m

/-- The `while` loop of `modpow` (40_number_theory.md R82), at most the given number of rounds. -/
def modpowLoop (m : Word) : Nat → (result base ex : Word) → Word
  | 0, result, _, _ => result
  | k + 1, result, base, ex =>
    if ex = 0#32 then result
    else
      modpowLoop m k (if ex.getLsbD 0 then mulmod result base m else result) (mulmod base base m) (ex >>> 1)

/-- `modpow(b, e, m)` (40_number_theory.md R82): right-to-left square-and-multiply, "at most 32 rounds". -/
def modpow (b e m : Word) : Word := modpowLoop m 32 (reduce 1 m) (reduce b.toNat m) e

/-- The `while` loop of `modinv` (40_number_theory.md R84): remainders `r0`, `r1` and the coefficients `t0`, `t1` of the
operand. It answers the final `r0` and `t0`. Each round at least halves `r0 * r1`, so 64 rounds are enough for 32-bit
operands (45_system.md R162 calls the number of rounds bounded; log entry 10). -/
def euclidLoop : Nat → (r0 r1 : Nat) → (t0 t1 : Int) → Nat × Int
  | 0, r0, _, t0, _ => (r0, t0)
  | k + 1, r0, r1, t0, t1 =>
    if r1 = 0 then (r0, t0)
    else euclidLoop k r1 (r0 - r0 / r1 * r1) t1 (t0 - ((r0 / r1 : Nat) : Int) * t1)

/-- Rounds granted to the extended Euclidean loop. -/
def euclidRounds : Nat := 64

/-- `modinv(a, m)` (40_number_theory.md R84), for `m >= 1`: the inverse of `a` modulo `m`, or `none`. -/
def modinv (a m : Word) : Option Word :=
  match euclidLoop euclidRounds m.toNat (a.toNat % m.toNat) 0 1 with
  | (g, t) =>
    if g ≠ 1 then none
    else some (BitVec.ofInt 32 (if t < 0 then t + (m.toNat : Int) else t))

end Sys2Proof.Machine
end

