-- ==== Sys2Proof/Machine/State.lean ====
section
/-!
DEFINITION. Machine/State.lean: the architectural state (10_state.md R10), the host's side of a run (70_reset_and_hazards.md
R225), the state after reset (R26), and the reasons a step can stop.
-/

namespace Sys2Proof.Machine

/-- The permutation variant latched in the flag `VAR` (10_state.md R13): 0 is (a), 1 is (b). -/
inductive Variant where
  /-- variant (a), quadratic residues: `x -> x^2 mod n` -/
  | a
  /-- variant (b), exponentiation: `x -> x^e mod n` -/
  | b
  deriving DecidableEq, Repr

/-- What can arrive at the block from outside, one event a step (00_scope.md R7, R8; 70_reset_and_hazards.md R210).
`off` is the low 8 bits of the host address, all the block decodes (20_memory.md R40); `n` is the access's width in bytes. -/
inductive PortEvent where
  /-- `MemRead(BASE + off, n)`, 20_memory.md R53 -/
  | rd (off : Byte) (n : Nat)
  /-- `MemWrite(BASE + off, n, v)`, 20_memory.md R54. Only a 4-byte write is performed, so only its value can matter. -/
  | wr (off : Byte) (n : Nat) (v : Word)
  /-- the platform's reset input, 70_reset_and_hazards.md R210 -/
  | resetInput
  deriving DecidableEq, Repr

/-- The state. The fields up to `stepReg` are "exactly" the block's architectural state (10_state.md R10); `ID`, `CMD` and
`STATUS` hold nothing of their own (R13, R15, R16) and are answered by `readReg`. The last two fields are the model's own:
the host's side of a run (70_reset_and_hazards.md R225; assumption log entries 2 and 4). -/
structure State where
  /-- `A`, R11 -/
  a : Word
  /-- `B`, R11 -/
  b : Word
  /-- `M`, R11 -/
  m : Word
  /-- `R`, R11 -/
  r : Word
  /-- `DONE`, R13 -/
  done : Bool
  /-- `FLAG`, R13, R28 -/
  flag : Bool
  /-- `KEYV`, R13, R20 -/
  keyv : Bool
  /-- `VAR`, R13 -/
  var : Variant
  /-- `CWVX`, R13, R22 -/
  cwvx : Bool
  /-- `CWVP`, R13, R22 -/
  cwvp : Bool
  /-- `ERRCODE`, R13 -/
  errcode : Byte
  /-- `ERRLOG`, R14 -/
  errlog : Word
  /-- `P`, R17 -/
  p : Word
  /-- `Q`, R17 -/
  q : Word
  /-- `E`, R18 -/
  e : Word
  /-- `N`, R19 -/
  n : Word
  /-- `PHI`, R19 -/
  phi : Word
  /-- `CRT_C`, R19 -/
  crtC : Word
  /-- `CRT_D`, R19 -/
  crtD : Word
  /-- `DEXP`, R19 -/
  dexp : Word
  /-- `X0`, R21 -/
  x0 : Word
  /-- `CW_X`, R22 -/
  cwX : Word
  /-- `CW_P`, R22 -/
  cwP : Word
  /-- `CUR`, R23 -/
  cur : Word
  /-- `STEP`, R23 -/
  stepReg : Word
  /-- the accesses the host has still to issue, oldest first -/
  pending : List PortEvent
  /-- the values `RD` accesses have returned, oldest first -/
  returned : List Word
  deriving DecidableEq, Repr

/-- The reasons the machine stops with a fault: none. Every error of the block is a defined transition recorded in state, and
the block never halts (60_exceptions.md R180, 70_reset_and_hazards.md R225), so this type has no constructor. Safe: nothing
the hardware does is cut off. -/
inductive Fault where
  deriving DecidableEq, Repr

/-- The reasons the model has no meaning for a step. -/
inductive Refusal where
  /-- raised by an arm of `exec` for an instruction that has no meaning yet (no arm is in that case); safe -/
  | notModelled (mnemonic : String)
  deriving DecidableEq, Repr

/-- The state after reset, every value as 10_state.md R26 gives it. The host has issued nothing and read nothing
(assumption log entries 2 and 4). -/
def State.reset : State where
  a := 0#32
  b := 0#32
  m := 0#32
  r := 0#32
  done := false
  flag := false
  keyv := false
  var := .a
  cwvx := false
  cwvp := false
  errcode := 0#8
  errlog := 0#32
  p := 0#32
  q := 0#32
  e := Config.eReset
  n := 0#32
  phi := 0#32
  crtC := 0#32
  crtD := 0#32
  dexp := 0#32
  x0 := 0#32
  cwX := 0#32
  cwP := 0#32
  cur := 0#32
  stepReg := 0#32
  pending := []
  returned := []

end Sys2Proof.Machine
end

