-- ==== Sys2Proof/Machine/Flags.lean ====
section
/-!
DEFINITION. Machine/Flags.lean: the error codes (60_exceptions.md R181), the STATUS word (10_state.md R13) and the hardcore
predicate (43_predicate.md R130).
-/

namespace Sys2Proof.Machine

/-- The errors (60_exceptions.md R181). -/
inductive ErrorKind where
  | trapdoorRejected
  /-- reserved for the host-side generator, never raised by the block (R184) -/
  | cycleDetected
  | inversionFailed
  | lengthMismatch
  | illegalCommand
  | noKey
  | zeroModulus
  | notInvertible
  /-- an error of an access, never of a command: `ERRLOG` only (R192) -/
  | busError
  deriving DecidableEq, Repr

/-- The error codes 1 to 9 (60_exceptions.md R181). -/
def ErrorKind.code : ErrorKind → Nat
  | .trapdoorRejected => 1
  | .cycleDetected => 2
  | .inversionFailed => 3
  | .lengthMismatch => 4
  | .illegalCommand => 5
  | .noKey => 6
  | .zeroModulus => 7
  | .notInvertible => 8
  | .busError => 9

/-- The code as `ERRCODE` holds it. -/
def ErrorKind.errcode (x : ErrorKind) : Byte := BitVec.ofNat 8 x.code

/-- The error's bit of `ERRLOG`: bit `code - 1` (10_state.md R14). -/
def ErrorKind.logBit (x : ErrorKind) : Word := Word.bit (x.code - 1)

/-- The bit of a variant in `STATUS` (10_state.md R13) and in a command word (30_encoding.md R60). -/
def Variant.bit : Variant → Bool
  | .a => false
  | .b => true

/-- `ERR` "reads as 1 exactly when `ERRCODE != 0`" (10_state.md R13). -/
def errFlag (s : State) : Bool := s.errcode != 0#8

/-- The `STATUS` register, assembled from the flags; bits 7 and 31:16 read 0 (10_state.md R13). -/
def statusWord (s : State) : Word :=
  0#16 ++ s.errcode ++ 0#1 ++ BitVec.ofBool s.cwvp ++ BitVec.ofBool s.cwvx ++ BitVec.ofBool s.var.bit
    ++ BitVec.ofBool s.keyv ++ BitVec.ofBool s.flag ++ BitVec.ofBool (errFlag s) ++ BitVec.ofBool s.done

/-- The exclusive or of the `k` low bits of `x`. -/
def xorBits (x : Word) : Nat → Bool
  | 0 => false
  | k + 1 => Bool.xor (x.getLsbD k) (xorBits x k)

/-- `parity32`: the exclusive or of all 32 bits (43_predicate.md R130). -/
def parity32 (x : Word) : Bool := xorBits x 32

/-- The errors of these commands clear `FLAG` (60_exceptions.md R182, 10_state.md R28). -/
def clearsFlagOnError : Option Instr → Bool
  | some .qrtest => true
  | some .decode => true
  | _ => false

end Sys2Proof.Machine
end

