-- ==== Sys2Proof/Machine/Operands.lean ====
section
/-!
DEFINITION. Machine/Operands.lean: the registers as the host names them, their offsets and access classes (20_memory.md R41),
and what each command needs of the key (30_encoding.md R63).
-/

namespace Sys2Proof.Machine

/-- The registers of the window, in the order of their offsets (20_memory.md R41). -/
inductive Reg where
  | id | cmd | status | errlog | a | b | m | r | p | q | e | n | phi | crtC | crtD | dexp | x0 | cwX | cwP | cur | step
  deriving DecidableEq, Repr

/-- How the host may access a register (20_memory.md R41). -/
inductive Access where
  /-- read-only -/
  | ro
  /-- write-only, reads 0 -/
  | wo
  /-- read and write -/
  | rw
  /-- read, write one to clear -/
  | w1c
  deriving DecidableEq, Repr

/-- Byte offset of a register (20_memory.md R41). -/
def Reg.offset : Reg → Byte
  | .id => 0x00#8
  | .cmd => 0x04#8
  | .status => 0x08#8
  | .errlog => 0x0C#8
  | .a => 0x10#8
  | .b => 0x14#8
  | .m => 0x18#8
  | .r => 0x1C#8
  | .p => 0x20#8
  | .q => 0x24#8
  | .e => 0x28#8
  | .n => 0x2C#8
  | .phi => 0x30#8
  | .crtC => 0x34#8
  | .crtD => 0x38#8
  | .dexp => 0x3C#8
  | .x0 => 0x40#8
  | .cwX => 0x44#8
  | .cwP => 0x48#8
  | .cur => 0x4C#8
  | .step => 0x50#8

/-- All registers, in the order of their offsets. -/
def Reg.all : List Reg :=
  [.id, .cmd, .status, .errlog, .a, .b, .m, .r, .p, .q, .e, .n, .phi, .crtC, .crtD, .dexp, .x0, .cwX, .cwP, .cur, .step]

/-- The register at an offset, if one is mapped there; an aligned offset without one is reserved (20_memory.md R41, R45). -/
def regAt (off : Byte) : Option Reg := Reg.all.find? fun g => g.offset == off

/-- Host access to a register (20_memory.md R41). -/
def Reg.access : Reg → Access
  | .id | .status | .r | .n | .phi | .crtC | .crtD | .dexp | .cur | .step => .ro
  | .cmd => .wo
  | .errlog => .w1c
  | .a | .b | .m | .p | .q | .e | .x0 | .cwX | .cwP => .rw

/-- The offset within the window of a host byte address: the block decodes only the low 8 address bits (20_memory.md R40). -/
def offsetOf (addr : Nat) : Byte := BitVec.ofNat 8 addr

/-- Host byte address of a register: `BASE + off` (20_memory.md R40, R53). -/
def Reg.address (g : Reg) : Nat := Config.base + g.offset.toNat

/-- An access the port performs: 32 bits wide at an offset that is a multiple of 4 (20_memory.md R42). -/
def accessOk (off : Byte) (n : Nat) : Bool := n == 4 && off.toNat % 4 == 0

/-- The commands that need `KEYV` (30_encoding.md R63). -/
def needsKey : Instr → Bool
  | .qrtest | .pfwd | .pinv | .encode | .decode => true
  | .nop | .modpow | .modinv | .pred | .keyloadA | .keyloadB | .sreset => false

end Sys2Proof.Machine
end

