-- ==== Sys2Proof/Machine/Ops.lean ====
section
/-!
DEFINITION. Machine/Ops.lean: the named operations over the state that commands and accesses share: raising an error and
acknowledging it, completing a command, invalidating the key, resetting, reading and writing a register.
-/

namespace Sys2Proof.Machine

/-- The outcome of one command or access. -/
abbrev Result := Host.Outcome State Fault Refusal

/-- `raise X`, the block's one form of taking an exception (60_exceptions.md R182, R195), raised by the command `cmd`
(`none`: a word that is no command). Only `ERRCODE`, the error's `ERRLOG` bit, `DONE`, and `FLAG` for `QRTEST` and `DECODE`,
change. -/
def raise (cmd : Option Instr) (x : ErrorKind) (s : State) : State :=
  { s with
    errcode := x.errcode
    errlog := s.errlog ||| x.logBit
    done := true
    flag := if clearsFlagOnError cmd then false else s.flag }

/-- The block's form of returning from an exception: the host acknowledges logged errors by writing ones
(60_exceptions.md R196, 10_state.md R14). -/
def acknowledge (mask : Word) (s : State) : State := { s with errlog := s.errlog &&& ~~~mask }

/-- Step 7 of a command's life: `ERRCODE <- 0; DONE <- 1` (30_encoding.md R69). -/
def complete (s : State) : State := { s with errcode := 0#8, done := true }

/-- A host access the port does not perform: `ERRLOG[8] <- 1` and nothing else (20_memory.md R42, R45; 60_exceptions.md
R192). -/
def logBusError (s : State) : State := { s with errlog := s.errlog ||| ErrorKind.busError.logBit }

/-- Key invalidation (10_state.md R20): `KEYV` and the derived key registers are cleared; `VAR` is kept. -/
def invalidateKey (s : State) : State :=
  { s with
    keyv := false
    n := 0#32
    phi := 0#32
    crtC := 0#32
    crtD := 0#32
    dexp := 0#32 }

/-- Reset by the reset input or by `SRESET`: every register and flag takes its reset value (70_reset_and_hazards.md R210).
What the host has still to issue and what it has read are not the block's. -/
def resetAll (s : State) : State := { State.reset with pending := s.pending, returned := s.returned }

/-- Step 3 of a command's life that needs a key: `NoKey` while `KEYV = 0` (30_encoding.md R69, 60_exceptions.md R189). -/
def withKey (cmd : Instr) (s : State) (body : Result) : Result :=
  if s.keyv then body else .next (raise (some cmd) .noKey s)

/-- The host's next accesses become `evs`. -/
def setPending (evs : List PortEvent) (s : State) : State := { s with pending := evs }

/-- An `RD` access returns `v` to the host. -/
def pushReturned (v : Word) (s : State) : State := { s with returned := s.returned ++ [v] }

/-! ## Registers -/

/-- The value of a register as the host reads it (20_memory.md R43): `ID` is a constant (10_state.md R15), `CMD` reads 0
(R16), `STATUS` is assembled (R13). -/
def readReg (s : State) : Reg → Word
  | .id => Config.idValue
  | .cmd => 0#32
  | .status => statusWord s
  | .errlog => s.errlog
  | .a => s.a
  | .b => s.b
  | .m => s.m
  | .r => s.r
  | .p => s.p
  | .q => s.q
  | .e => s.e
  | .n => s.n
  | .phi => s.phi
  | .crtC => s.crtC
  | .crtD => s.crtD
  | .dexp => s.dexp
  | .x0 => s.x0
  | .cwX => s.cwX
  | .cwP => s.cwP
  | .cur => s.cur
  | .step => s.stepReg

/-- The effect of a performed host write of `v`, by register class (20_memory.md R44, R45). A write to `CMD` issues a
command instead (`commandIssued`), so here it changes nothing. -/
def writeReg (s : State) (v : Word) : Reg → State
  | .a => { s with a := v }
  | .b => { s with b := v }
  | .m => { s with m := v }
  | .x0 => { s with x0 := v }
  | .p => invalidateKey { s with p := v }
  | .q => invalidateKey { s with q := v }
  | .e => invalidateKey { s with e := v }
  | .cwX => { s with cwX := v, cwvx := true }
  | .cwP => { s with cwP := v, cwvp := true }
  | .errlog => acknowledge v s
  | .cmd => s
  | .id | .status | .r | .n | .phi | .crtC | .crtD | .dexp | .cur | .step => logBusError s

end Sys2Proof.Machine
end

