-- ==== Sys2Proof/Machine/Permutation.lean ====
section
/-!
DEFINITION. Machine/Permutation.lean: the trapdoor permutation, forward and inverse, the quadratic residue test, and the
commands `PFWD`, `PINV`, `QRTEST` (42_permutation.md). The functions read the key registers of the state they are given.
-/

namespace Sys2Proof.Machine

/-- `fwd(x)` under the loaded key (42_permutation.md R110). -/
def fwd (s : State) (x : Word) : Word :=
  match s.var with
  | .a => mulmod (reduce x.toNat s.n) (reduce x.toNat s.n) s.n
  | .b => modpow x s.e s.n

/-- The exponent `(p + 1) div 4` of the square root modulo `p` (42_permutation.md R112). -/
def rootExponent (p : Word) : Word := BitVec.ofNat 32 ((p.toNat + 1) / 4)

/-- `a^((p + 1) div 4) mod p`: the square root of `a` modulo `p`, if `a` is a square there. -/
def rootMod (a p : Word) : Word := modpow a (rootExponent p) p

/-- The four candidate roots in the order `++`, `+-`, `-+`, `--` (42_permutation.md R112, 90_conflicts.md C3). -/
def candidates (s : State) (a : Word) : List Word :=
  let u := (mulmod s.crtC (rootMod a s.p) s.n).toNat
  let w := (mulmod s.crtD (rootMod a s.q) s.n).toNat
  let n := s.n.toNat
  [reduce (u + w) s.n, reduce (u + n - w) s.n, reduce (n - u + w) s.n, reduce (n - u + (n - w)) s.n]

/-- `inv_a(a0)` (42_permutation.md R112): the first candidate whose square is `a0 mod N`. -/
def invA (s : State) (a0 : Word) : Option Word :=
  let a := reduce a0.toNat s.n
  (candidates s a).find? fun c => mulmod c c s.n == a

/-- `inv_b(a0)` (42_permutation.md R113). -/
def invB (s : State) (a0 : Word) : Word := modpow a0 s.dexp s.n

/-- `inv(a0)` (42_permutation.md R115); `none` is `fail`. -/
def inv (s : State) (a0 : Word) : Option Word :=
  match s.var with
  | .a => invA s a0
  | .b => some (invB s a0)

/-- `a` is a square modulo `p` by the test of 42_permutation.md R116: its root, squared, gives it back. -/
def rootVerifies (a p : Word) : Bool := mulmod (rootMod a p) (rootMod a p) p == reduce a.toNat p

/-- `qr(a0)` (42_permutation.md R116). -/
def qr (s : State) (a0 : Word) : Bool := rootVerifies a0 s.p && rootVerifies a0 s.q

/-- `PFWD` (42_permutation.md R111). -/
def execPfwd (s : State) : Result :=
  withKey .pfwd s (.next (complete { s with r := fwd s s.a }))

/-- `PINV` (42_permutation.md R114). -/
def execPinv (s : State) : Result :=
  withKey .pinv s
    (match inv s s.a with
    | none => .next (raise (some .pinv) .inversionFailed s)
    | some t => .next (complete { s with r := t }))

/-- `QRTEST` (42_permutation.md R116): under a variant (b) key it raises `NoKey` too. -/
def execQrtest (s : State) : Result :=
  withKey .qrtest s
    (match s.var with
    | .a => .next (complete { s with flag := qr s s.a })
    | .b => .next (raise (some .qrtest) .noKey s))

end Sys2Proof.Machine
end

