-- ==== Sys2Proof/Machine/Codec.lean ====
section
/-!
DEFINITION. Machine/Codec.lean: the codeword encoder and decoder, the commands `ENCODE` and `DECODE` (44_codec.md).
-/

namespace Sys2Proof.Machine

/-- One round of the encoder: the iterate and the predicate sequence so far (44_codec.md R136). -/
structure EncodeRound where
  cur : Word
  seq : Word
  deriving DecidableEq, Repr

/-- Round `i` of the encoder's loop: `if i != 0: cur = fwd(cur)`, then the new predicate bit enters at bit 0. -/
def encodeRound (f : Word → Word) (st : EncodeRound) (i : Nat) : EncodeRound :=
  let cur := if i = 0 then st.cur else f st.cur
  { cur := cur, seq := (st.seq <<< 1) ||| (BitVec.ofBool (parity32 cur)).setWidth 32 }

/-- Rounds `0 .. k - 1` of the encoder's loop from the seed `x0`. -/
def encodeLoop (f : Word → Word) (x0 : Word) : Nat → EncodeRound
  | 0 => { cur := x0, seq := 0#32 }
  | k + 1 => encodeRound f (encodeLoop f x0 k) k

/-- `ENCODE` (44_codec.md R136). -/
def execEncode (s : State) : Result :=
  let out := encodeLoop (fwd s) s.x0 Config.K
  withKey .encode s
    (.next (complete
      { s with
        cwX := out.cur
        cwP := out.seq
        cur := out.cur
        stepReg := BitVec.ofNat 32 Config.K
        cwvx := true
        cwvp := true }))

/-- How the decoder's loop ends (the outcomes of 44_codec.md R138 that get past its checks). -/
inductive DecodeEnd where
  /-- all checks passed; `cur` is the result of the last inversion -/
  | member (cur : Word)
  /-- check `j` failed on `cur`: `MembershipRejected`, no error -/
  | rejected (j : Nat) (cur : Word)
  /-- check `j` passed and `cur` has no inverse: `InversionFailed` -/
  | inversionFailed (j : Nat) (cur : Word)
  deriving DecidableEq, Repr

/-- The decoder's loop from step `j` with the given number of steps to go: the predicate check, then the inversion, which
is not attempted after a failed check (44_codec.md R138, R139). -/
def decodeLoop (g : Word → Option Word) (pField : Word) : Nat → (j : Nat) → (cur : Word) → DecodeEnd
  | 0, _, cur => .member cur
  | k + 1, j, cur =>
    if parity32 cur = pField.getLsbD j then
      match g cur with
      | none => .inversionFailed j cur
      | some next => decodeLoop g pField k (j + 1) next
    else .rejected j cur

/-- What `DECODE` writes at its end, the valid flags having been consumed (44_codec.md R138, table of outcomes). -/
def decodeCommit (s : State) : DecodeEnd → State
  | .member c => complete { s with flag := true, stepReg := BitVec.ofNat 32 Config.K, cur := c }
  | .rejected j c => complete { s with flag := false, stepReg := BitVec.ofNat 32 j, cur := c }
  | .inversionFailed j c =>
    raise (some .decode) .inversionFailed { s with stepReg := BitVec.ofNat 32 (j + 1), cur := c }

/-- `DECODE` (44_codec.md R138). -/
def execDecode (s : State) : Result :=
  withKey .decode s
    (if s.cwvx && s.cwvp then
      .next (decodeCommit { s with cwvx := false, cwvp := false } (decodeLoop (inv s) s.cwP Config.K 0 s.cwX))
    else .next (raise (some .decode) .lengthMismatch s))

end Sys2Proof.Machine
end

