-- ==== Sys2Proof/Machine/NumberTheory.lean ====
section
/-!
DEFINITION. Machine/NumberTheory.lean: the commands `MODPOW` and `MODINV` (40_number_theory.md).
-/

namespace Sys2Proof.Machine

/-- `MODPOW` (40_number_theory.md R83). -/
def execModpow (s : State) : Result :=
  if s.m = 0#32 then .next (raise (some .modpow) .zeroModulus s)
  else .next (complete { s with r := modpow s.a s.b s.m })

/-- `MODINV` (40_number_theory.md R85). -/
def execModinv (s : State) : Result :=
  if s.m = 0#32 then .next (raise (some .modinv) .zeroModulus s)
  else
    match modinv s.a s.m with
    | none => .next (raise (some .modinv) .notInvertible s)
    | some t => .next (complete { s with r := t })

end Sys2Proof.Machine
end

