-- ==== Sys2Proof/Machine/Predicate.lean ====
section
/-!
DEFINITION. Machine/Predicate.lean: the command `PRED` (43_predicate.md).
-/

namespace Sys2Proof.Machine

/-- `PRED` (43_predicate.md R131). -/
def execPred (s : State) : Result := .next (complete { s with flag := parity32 s.a })

end Sys2Proof.Machine
end

