-- ==== Sys2Proof/Machine/System.lean ====
section
/-!
DEFINITION. Machine/System.lean: the commands `NOP` and `SRESET` (45_system.md).
-/

namespace Sys2Proof.Machine

/-- `NOP` (45_system.md R160). -/
def execNop (s : State) : Result := .next (complete s)

/-- `SRESET` (45_system.md R161): "the one command that does not finish with `DONE <- 1`". -/
def execSreset (s : State) : Result := .next (resetAll s)

end Sys2Proof.Machine
end

