-- ==== Sys2Proof/Machine/Trapdoor.lean ====
section
/-!
DEFINITION. Machine/Trapdoor.lean: the key store and the command `KEYLOAD` in its two forms (41_trapdoor_key.md).
-/

namespace Sys2Proof.Machine

/-- The constants `KEYLOAD` derives (10_state.md R19). -/
structure DerivedKey where
  n : Word
  phi : Word
  crtC : Word
  crtD : Word
  dexp : Word
  deriving DecidableEq, Repr

/-- `DEXP`: 0 under variant (a), the inverse of `E` modulo `PHI` under variant (b) (41_trapdoor_key.md R101). -/
def privateExponent (v : Variant) (e phi : Word) : Option Word :=
  match v with
  | .a => some 0#32
  | .b => modinv e phi

/-- The checks and derivations of `KEYLOAD`, in the order of 41_trapdoor_key.md R101; `none` is `reject`. -/
def deriveKey (v : Variant) (p q e : Word) : Option DerivedKey :=
  if p.toNat < 2 ∨ q.toNat < 2 then none
  else if p.toNat * q.toNat ≥ Config.nMax then none
  else if v = .a ∧ (p.toNat % 4 ≠ 3 ∨ q.toNat % 4 ≠ 3) then none
  else
    match modinv q p, modinv p q with
    | some qi, some pi =>
      let n : Word := BitVec.ofNat 32 (p.toNat * q.toNat)
      let phi : Word := BitVec.ofNat 32 ((p.toNat - 1) * (q.toNat - 1))
      match privateExponent v e phi with
      | none => none
      | some dx => some { n := n, phi := phi, crtC := mulmod q qi n, crtD := mulmod p pi n, dexp := dx }
    | _, _ => none

/-- The commit of a successful `KEYLOAD` (41_trapdoor_key.md R101). -/
def installKey (v : Variant) (k : DerivedKey) (s : State) : State :=
  { s with
    n := k.n
    phi := k.phi
    crtC := k.crtC
    crtD := k.crtD
    dexp := k.dexp
    var := v
    keyv := true }

/-- `KEYLOAD` of variant `v` by the command `cmd`; a rejection zeroes the key and raises `TrapdoorRejected`. -/
def keyload (cmd : Instr) (v : Variant) (s : State) : Result :=
  match deriveKey v s.p s.q s.e with
  | none => .next (raise (some cmd) .trapdoorRejected (invalidateKey s))
  | some k => .next (complete (installKey v k s))

/-- `KEYLOAD.a` (41_trapdoor_key.md R101). -/
def execKeyloadA (s : State) : Result := keyload .keyloadA .a s

/-- `KEYLOAD.b` (41_trapdoor_key.md R101). -/
def execKeyloadB (s : State) : Result := keyload .keyloadB .b s

end Sys2Proof.Machine
end

