-- ==== Sys2Proof/Machine/Dispatch.lean ====
section
/-!
DEFINITION. Machine/Dispatch.lean: one arm per command, each a direct call of that command's meaning.
-/

namespace Sys2Proof.Machine

-- the execution of a legal command, steps 2 to 7 of 30_encoding.md R69
def exec (i : Instr) (s : State) : Host.Outcome State Fault Refusal :=
  match i with
  | .nop => Sys2Proof.Machine.execNop s
  | .modpow => Sys2Proof.Machine.execModpow s
  | .modinv => Sys2Proof.Machine.execModinv s
  | .qrtest => Sys2Proof.Machine.execQrtest s
  | .pred => Sys2Proof.Machine.execPred s
  | .keyloadA => Sys2Proof.Machine.execKeyloadA s
  | .keyloadB => Sys2Proof.Machine.execKeyloadB s
  | .pfwd => Sys2Proof.Machine.execPfwd s
  | .pinv => Sys2Proof.Machine.execPinv s
  | .encode => Sys2Proof.Machine.execEncode s
  | .decode => Sys2Proof.Machine.execDecode s
  | .sreset => Sys2Proof.Machine.execSreset s

end Sys2Proof.Machine
end

