-- ==== Sys2Proof/Machine/Port.lean ====
section
/-!
DEFINITION. Machine/Port.lean: the host port, `RD` and `WR` (20_memory.md R42 to R45, R53, R54), and the issue of a command.
-/

namespace Sys2Proof.Machine

/-- `MemRead(BASE + off, n)` (20_memory.md R53): the value returned and the state after. -/
def hostRead (off : Byte) (n : Nat) (s : State) : Word × State :=
  if accessOk off n then
    match regAt off with
    | none => (0#32, logBusError s)
    | some g => (readReg s g, s)
  else (0#32, logBusError s)

/-- `MemWrite(BASE + off, n, v)` where it issues no command (20_memory.md R54). -/
def hostWrite (off : Byte) (n : Nat) (v : Word) (s : State) : State :=
  if accessOk off n then
    match regAt off with
    | none => logBusError s
    | some g => writeReg s v g
  else logBusError s

/-- The word of the command that an event issues: a performed write to `CMD`, and nothing else (10_state.md R12, R16). -/
def commandIssued : PortEvent → Option Word
  | .wr off n v => if accessOk off n && off == Reg.offset .cmd then some v else none
  | .rd _ _ => none
  | .resetInput => none

/-- The effect of an event that issues no command. An `RD` appends the value it returns to the host's list
(70_reset_and_hazards.md R225). -/
def portEffect (ev : PortEvent) (s : State) : State :=
  match ev with
  | .rd off n => pushReturned (hostRead off n s).1 (hostRead off n s).2
  | .wr off n v => hostWrite off n v s
  | .resetInput => resetAll s

/-- A word that is no legal command word raises `IllegalCommand` and has no other effect (30_encoding.md R64,
60_exceptions.md R188). -/
def illegalCommand (s : State) : State := raise none .illegalCommand s

/-- The host's write of a command word to `CMD`, as a port event (20_memory.md R54; 30_encoding.md R67). -/
def commandWrite (w : Word) : PortEvent := .wr (Reg.offset .cmd) 4 w

end Sys2Proof.Machine
end

