-- ==== Sys2Proof/Machine/Step.lean ====
section
/-!
DEFINITION. Machine/Step.lean: one step is one host access, a `CMD` write with the whole command it issues (00_scope.md R8).
-/

namespace Sys2Proof.Machine

/-- One step: the block takes the host's next access. With none pending it waits and nothing changes
(70_reset_and_hazards.md R225; assumption log entry 3). -/
def step (s : State) : Host.Outcome State Fault Refusal :=
  match s.pending with
  | [] => .next s
  | ev :: rest =>
    match commandIssued ev with
    | none => .next (portEffect ev (setPending rest s))
    | some w =>
      match decodeWord w with
      | .ok i => exec i (setPending rest s)
      | .error _ => .next (illegalCommand (setPending rest s))

/-- `s` with the instruction's word as the next thing the host writes to `CMD`: the block fetches nothing, a command reaches it
only so (10_state.md R12). -/
def State.withFetchWord (s : State) (nbits w : Nat) : State :=
  setPending (commandWrite (tableWord nbits w) :: s.pending) s

end Sys2Proof.Machine
end

