-- ==== Sys2Proof/Machine/HostNotation.lean ====
section
/-!
DEFINITION. Machine/HostNotation.lean: the lines of a host program and the pseudo-instructions, as port events
(30_encoding.md R67, R68). A program is a list of events; running it is putting the list into `pending`.
-/

namespace Sys2Proof.Machine

/-- `WR reg, value` (30_encoding.md R67). -/
def wrLine (g : Reg) (v : Word) : PortEvent := .wr g.offset 4 v

/-- `RD reg` (30_encoding.md R67). -/
def rdLine (g : Reg) : PortEvent := .rd g.offset 4

/-- `CMD mnemonic` (30_encoding.md R67). -/
def cmdLine (i : Instr) : PortEvent := commandWrite (encode i)

/-! ## Pseudo-instructions (30_encoding.md R68) -/

/-- `LDKEY.a p, q` -/
def ldkeyA (p q : Word) : List PortEvent := [wrLine .p p, wrLine .q q, cmdLine .keyloadA]

/-- `LDKEY.b p, q, e` -/
def ldkeyB (p q e : Word) : List PortEvent := [wrLine .p p, wrLine .q q, wrLine .e e, cmdLine .keyloadB]

/-- `MPOW a, b, m` -/
def mpow (a b m : Word) : List PortEvent := [wrLine .a a, wrLine .b b, wrLine .m m, cmdLine .modpow]

/-- `MINV a, m` -/
def minv (a m : Word) : List PortEvent := [wrLine .a a, wrLine .m m, cmdLine .modinv]

/-- `QRT a` -/
def qrt (a : Word) : List PortEvent := [wrLine .a a, cmdLine .qrtest]

/-- `PAR a` -/
def par (a : Word) : List PortEvent := [wrLine .a a, cmdLine .pred]

/-- `FWD a` -/
def fwdLines (a : Word) : List PortEvent := [wrLine .a a, cmdLine .pfwd]

/-- `INV a` -/
def invLines (a : Word) : List PortEvent := [wrLine .a a, cmdLine .pinv]

/-- `ENC x0` -/
def enc (x0 : Word) : List PortEvent := [wrLine .x0 x0, cmdLine .encode]

/-- `DEC x, p` -/
def dec (x p : Word) : List PortEvent := [wrLine .cwX x, wrLine .cwP p, cmdLine .decode]

/-- `ACK mask` -/
def ackLines (mask : Word) : List PortEvent := [wrLine .errlog mask]

end Sys2Proof.Machine
end

