-- ==== Sys2Proof/Machine/Boundary.lean ====
section
/-!
DEFINITION. Machine/Boundary.lean: the host-side collaborators at the block's boundary (49_boundary_collaborators.md) and the
wire format of codewords (20_memory.md R47, R48). NOTHING HERE IS PART OF THE BLOCK (00_scope.md R4; R165): no step calls it.
The choices where the text leaves a point open are in the assumption log, entries 13 and 20.
-/

namespace Sys2Proof.Machine

/-! ## Wire format (20_memory.md R47, R48) -/

/-- The four stream bytes of a half of a codeword, most significant first (R47). -/
def wordBytes (x : Word) : List Byte := [x.extractLsb' 24 8, x.extractLsb' 16 8, x.extractLsb' 8 8, x.extractLsb' 0 8]

/-- The eight stream bytes of the codeword `x || p` (R47). -/
def codewordBytes (x p : Word) : List Byte := wordBytes x ++ wordBytes p

/-- Bit `t` (0 to 63) of the codeword's bit string (R47). -/
def codewordBit (x p : Word) (t : Nat) : Bool := if t < 32 then x.getLsbD (31 - t) else p.getLsbD (63 - t)

/-- The ciphertext cut into codewords; `none` is the length mismatch the host must report when the length is no multiple of
8 bytes (R48; 49_boundary_collaborators.md R176). -/
def splitBlocks : List Byte → Option (List (Word × Word))
  | [] => some []
  | a :: b :: c :: d :: e :: f :: g :: h :: rest =>
    (splitBlocks rest).map fun blocks => (a ++ b ++ c ++ d, e ++ f ++ g ++ h) :: blocks
  | _ => none

/-- The bits of a byte, most significant first (R48). -/
def byteBits (x : Byte) : List Bool := (List.range 8).map fun k => x.getLsbD (7 - k)

/-- The plaintext's bits in the order the codewords encode them (R48). -/
def plaintextBits (bytes : List Byte) : List Bool := bytes.flatMap byteBits

/-- Bits packed eight to a byte, most significant first (R48). DESIGN CHOICE: 1 to 7 bits left over at the end, of which the
spec says nothing, pack to nothing (assumption log entry 20). -/
def packBits : List Bool → List Byte
  | a :: b :: c :: d :: e :: f :: g :: h :: rest =>
    (BitVec.ofBool a ++ BitVec.ofBool b ++ BitVec.ofBool c ++ BitVec.ofBool d ++ BitVec.ofBool e ++ BitVec.ofBool f
      ++ BitVec.ofBool g ++ BitVec.ofBool h) :: packBits rest
  | _ => []

/-! ## The message procedure (49_boundary_collaborators.md R173) -/

/-- The host's accesses for a plaintext bit 1: a seed, `ENCODE`, and the two halves read back. -/
def encodeOneLines (seed : Word) : List PortEvent := enc seed ++ [rdLine .cwX, rdLine .cwP]

/-- The host's accesses for one block of ciphertext. -/
def decodeBlockLines (x p : Word) : List PortEvent := dec x p ++ [rdLine .status]

/-- The plaintext bit the host takes from the `STATUS` word read after `DECODE`: `FLAG` when `ERRCODE = 0`, `INVFAIL_BIT`
when `ERRCODE = 3`; `none` for an error that is no outcome of a well-run block. -/
def plaintextBit (status : Word) : Option Bool :=
  let code := status.extractLsb' 8 8
  if code = 0#8 then some (status.getLsbD 2)
  else if code = ErrorKind.inversionFailed.errcode then some Config.invfailBit
  else none

/-! ## Primality and screening (49_boundary_collaborators.md R167, R171) -/

/-- The 6k-1, 6k+1 wheel from the candidate `i`. -/
def wheelLoop (n : Nat) : Nat → (i : Nat) → Bool
  | 0, _ => true
  | k + 1, i =>
    if n < i * i then true
    else if n % i = 0 || n % (i + 2) = 0 then false
    else wheelLoop n k (i + 6)

/-- `isPrime(n)` for `n < 2^32`: the candidates 5, 11, ... reach 2^16 within 10923 rounds (R167). -/
def isPrime (n : Nat) : Bool :=
  if n ≤ 1 then false
  else if n ≤ 3 then true
  else if n % 2 = 0 || n % 3 = 0 then false
  else wheelLoop n 10923 5

/-- The document's literal screening of a variant (a) trapdoor, `p/2` with `/` the floor division (R170, R171). -/
def residuosityScreen (p q : Nat) : Bool :=
  p % 4 == 3 && q % 4 == 3 && isPrime (p / 2) && isPrime (q / 2)

/-- What the host must have established before `KEYLOAD` of variant `v` (R171). -/
def hostScreen (v : Variant) (p q : Nat) : Bool :=
  isPrime p && isPrime q &&
    match v with
    | .a => residuosityScreen p q
    | .b => true

/-! ## Hashes, generator, decoys, symmetric mode (R168 to R174) -/

/-- One multiply-and-fold round of `avalancheHash` (R168). -/
def avalancheRound (x : Word) : Word :=
  let y := x * 0x9E3779B9#32
  y ^^^ (y >>> 16)

/-- `avalancheHash` under the reading of R168: one exclusive or, then three rounds. -/
def avalancheHash (x : Word) : Word := avalancheRound (avalancheRound (avalancheRound (x ^^^ 0xA3C59AC3#32)))

/-- `sum of key[i] * i`, the index counted from `i` (R169). -/
def stretchSum : List Byte → (i : Nat) → Nat
  | [], _ => 0
  | c :: rest, i => c.toNat * i + stretchSum rest (i + 1)

/-- One call of `stretchKey`: the key grown by one byte in `[32,255]` (R169). -/
def stretchOnce (key : List Byte) : List Byte :=
  let seed := avalancheHash (BitVec.ofNat 32 (stretchSum key Config.stretchIndexOrigin.val))
  key ++ [BitVec.ofNat 8 (32 + (Config.stretchDraw seed).val)]

/-- The key grown by `k` bytes. -/
def stretchBy : Nat → List Byte → List Byte
  | 0, key => key
  | k + 1, key => stretchBy k (stretchOnce key)

/-- `stretchKey(key, targetLen)` (R169); `none` when the key is longer than the target, which the caller must not ask for. -/
def stretchKey (key : List Byte) (targetLen : Nat) : Option (List Byte) :=
  if key.length ≤ targetLen then some (stretchBy (targetLen - key.length) key) else none

/-- The squaring generator's loop: the values so far, and whether a value repeated (R170). -/
def cprngLoop (n : Nat) : Nat → (x : Nat) → (out : List Nat) → List Nat × Bool
  | 0, _, out => (out, false)
  | k + 1, x, out =>
    let y := x * x % n
    if out.contains y then (out, true) else cprngLoop n k y (out ++ [y])

/-- The quadratic-residue generator (R170): the sequence, and whether it ended early with `CycleDetected`. -/
def cprng (p q seed iterations : Nat) : Except ErrorKind (List Nat × Bool) :=
  if residuosityScreen p q then .ok (cprngLoop (p * q) iterations seed []) else .error .trapdoorRejected

/-- The exclusive-or folding of the decoy generator: `left'` and `right'` (R172). -/
def decoyFold (left right seed : Word) : Word × Word := (right ^^^ (left ^^^ seed), left)

/-- The key of the symmetric mode brought to the plaintext's length (R174). -/
def fitKey (key : List Byte) (len : Nat) : Option (List Byte) :=
  if len ≤ key.length then some (key.take len) else stretchKey key len

/-- Bytewise exclusive or. -/
def xorBytes (x y : List Byte) : List Byte := List.zipWith (· ^^^ ·) x y

/-- The symmetric mode (R174): the ciphertext and the decoy key. `none` when the decoy plaintext is longer than the key. -/
def symmetricMode (plaintext key decoy : List Byte) : Option (List Byte × List Byte) :=
  (fitKey key plaintext.length).bind fun k =>
    if decoy.length ≤ k.length then
      let ciphertext := xorBytes plaintext k
      some (ciphertext, xorBytes (decoy ++ List.replicate (k.length - decoy.length) 0x20#8) ciphertext)
    else none

end Sys2Proof.Machine
end

