-- ==== Sys2Proof/Safety.lean ====
section
/-!
DEFINITION. Safety.lean: the terms claims about the machine use: the invariant of every reachable state, a clean run, a key
made of primes, the permutation's domain.
-/

namespace Sys2Proof.Safety

open Sys2Proof.Machine

/-- The twelve legal command words, as 30_encoding.md R61 lists them. -/
def legalWords : List Word :=
  [0x00000000#32, 0x00000001#32, 0x00000002#32, 0x00000003#32, 0x00000004#32, 0x00000008#32, 0x00000108#32,
    0x00000010#32, 0x00000011#32, 0x00000020#32, 0x00000021#32, 0x0000007F#32]

/-- The number of one bits of a word (43_predicate.md R130). -/
def popcount (x : Word) : Nat := ((List.range 32).filter fun k => x.getLsbD k).length

/-- `a` is a square modulo `m`, zero counting as one (42_permutation.md R116). -/
def IsSquareMod (m a : Nat) : Prop := ∃ y, y * y ≡ a [MOD m]

/-- The derived key registers as one value (10_state.md R19). -/
def derivedKey (s : State) : DerivedKey := ⟨s.n, s.phi, s.crtC, s.crtD, s.dexp⟩

/-- The checks of `KEYLOAD` as numbers, in its order (41_trapdoor_key.md R101, R103). -/
def KeyAcceptable (v : Variant) (p q e : Word) : Prop :=
  2 ≤ p.toNat ∧ 2 ≤ q.toNat ∧ p.toNat * q.toNat < 2 ^ 32 ∧
    (v = .a → p.toNat % 4 = 3 ∧ q.toNat % 4 = 3) ∧ Nat.Coprime p.toNat q.toNat ∧
    (v = .b → Nat.Coprime e.toNat ((p.toNat - 1) * (q.toNat - 1)))

/-- "The derived registers never hold values that belong to a trapdoor other than the one in `P`, `Q`, `E`" (10_state.md
R20): while `KEYV = 1` they are what `KEYLOAD` derives from those registers under `VAR`, while `KEYV = 0` they are 0. -/
abbrev KeyConsistent (s : State) : Prop :=
  if s.keyv = true then deriveKey s.var s.p s.q s.e = some (derivedKey s)
  else derivedKey s = ⟨0#32, 0#32, 0#32, 0#32, 0#32⟩

/-- `ERRCODE` is 0 or a code a command raises: codes 2, 9 and 10 to 255 are never produced (60_exceptions.md R181). -/
abbrev LegalErrcode (s : State) : Prop :=
  s.errcode ∈ [0#8, 1#8, 3#8, 4#8, 5#8, 6#8, 7#8, 8#8]

/-- `ERRLOG` bits 31:9 read 0 and bit 1 is never set (10_state.md R14, 93_implementation_defined.md U13). -/
abbrev LegalErrlog (s : State) : Prop := s.errlog &&& 0xFFFFFE02#32 = 0#32

/-- `STEP` holds a value 0 to 32 (10_state.md R23). -/
abbrev LegalStep (s : State) : Prop := s.stepReg.toNat ≤ 32

/-- An outcome code is there only if a command has completed since reset (10_state.md R13). -/
abbrev ErrorNeedsDone (s : State) : Prop := s.errcode ≠ 0#8 → s.done = true

/-- The invariant: what holds of every state a run reaches from reset. -/
abbrev ReachableInv (s : State) : Prop :=
  KeyConsistent s ∧ LegalErrcode s ∧ LegalErrlog s ∧ LegalStep s ∧ ErrorNeedsDone s

/-- No bit of `ERRLOG` that is set is cleared in the first `k` steps from `s`: not by `WR ERRLOG`, `SRESET` or reset, the three
ways 60_exceptions.md R196 names (assumption log entry 19). -/
def logBitsKept : Nat → State → Bool
  | 0, _ => true
  | k + 1, s =>
    match step s with
    | .next t => s.errlog &&& ~~~t.errlog == 0#32 && logBitsKept k t
    | .fault _ => false
    | .refused _ => false

/-- The run of the accesses pending in `s` is clean: "`ERRLOG = 0` at its end, provided the host cleared no log bit during it"
(70_reset_and_hazards.md R225). -/
def Clean (s : State) : Prop :=
  (∃ t, core.run s.pending.length s = .next t ∧ t.errlog = 0#32) ∧ logBitsKept s.pending.length s = true

/-- A valid key whose `P` and `Q` are primes: the premise of 42_permutation.md R117 and R118. `KEYLOAD` itself has made sure
that they are distinct. -/
def PrimeKey (s : State) : Prop :=
  s.keyv = true ∧ KeyConsistent s ∧ s.p.toNat.Prime ∧ s.q.toNat.Prime

/-- The domain of the round trip (42_permutation.md R118): below `N`, and under variant (a) a square modulo `P` and `Q`. -/
abbrev InDomain (s : State) (x : Word) : Prop :=
  x.toNat < s.n.toNat ∧ (s.var = .a → qr s x = true)

end Sys2Proof.Safety
end

