-- ==== Sys2Proof/Certificates/Slice0/Obligations.lean ====
section
/-!
DEFINITION. Certificates/Slice0/Obligations.lean: the statements for the provers. Each docstring names the rule of spec/ it
formalises. Registers are numbers through `toNat`; an equation `exec i s = .next { s with .. }` says what the command writes
AND that nothing else changes. Where a statement speaks of `step`, the host's accesses stand in the model's own list `pending`
(assumption log entry 2), the values it has read in `returned` (entry 4), the reset input is one of its events (entry 7).
-/

open Sys2Proof Sys2Proof.Machine Sys2Proof.Safety

/-! ## Reset, encoding, the issue of a command -/

/-- 10_state.md R26: every register and flag after reset, by its field and as the host reads it, the reads after `SRESET` (the
reset input is in `SresetAndResetInputGiveTheResetState`), and every key-using command raising `NoKey` there. How long that
lasts is in `NoKeyUntilAKeyloadSucceeds`. -/
def Obligations.ResetGivesEveryRegisterItsValue : Prop :=
  (State.reset.a = 0#32 ∧ State.reset.b = 0#32 ∧ State.reset.m = 0#32 ∧ State.reset.r = 0#32 ∧
    State.reset.errlog = 0#32 ∧ State.reset.p = 0#32 ∧ State.reset.q = 0#32 ∧ State.reset.e = 17#32 ∧
    State.reset.n = 0#32 ∧ State.reset.phi = 0#32 ∧ State.reset.crtC = 0#32 ∧ State.reset.crtD = 0#32 ∧
    State.reset.dexp = 0#32 ∧ State.reset.x0 = 0#32 ∧ State.reset.cwX = 0#32 ∧ State.reset.cwP = 0#32 ∧
    State.reset.cur = 0#32 ∧ State.reset.stepReg = 0#32) ∧
  (∀ g : Reg, readReg State.reset g = if g = .id then 0x524F5801#32 else if g = .e then 17#32 else 0#32) ∧
  (State.reset.done = false ∧ State.reset.flag = false ∧ State.reset.keyv = false ∧ State.reset.var = .a ∧
    State.reset.cwvx = false ∧ State.reset.cwvp = false ∧ State.reset.errcode = 0#8) ∧
  (∀ s, ∃ t, exec .sreset s = .next t ∧ ∀ g, readReg t g = readReg State.reset g) ∧
  (∀ i, i ∈ [Instr.qrtest, .pfwd, .pinv, .encode, .decode] →
    exec i State.reset = .next { State.reset with errcode := 6#8, errlog := 0x20#32, done := true })

/-- 45_system.md R161 and 70_reset_and_hazards.md R210: `SRESET` and the reset input leave exactly the reset state (of the
block: what the host has still to issue and has read is its own); a word that merely resembles `SRESET` resets nothing. -/
def Obligations.SresetAndResetInputGiveTheResetState : Prop :=
  (∀ s, exec .sreset s = .next { State.reset with pending := s.pending, returned := s.returned }) ∧
  (∀ s rest, s.pending = PortEvent.resetInput :: rest →
    step s = .next { State.reset with pending := rest, returned := s.returned }) ∧
  (∀ s rest, s.pending = commandWrite 0x0000017F#32 :: rest →
    step s = .next { s with pending := rest, errcode := 5#8, errlog := s.errlog ||| 0x10#32, done := true })

/-- 30_encoding.md R61: the twelve legal words and their commands. -/
def Obligations.TheTwelveCommandWordsDecode : Prop :=
  decodeWord 0x00000000#32 = .ok .nop ∧ decodeWord 0x00000001#32 = .ok .modpow ∧
  decodeWord 0x00000002#32 = .ok .modinv ∧ decodeWord 0x00000003#32 = .ok .qrtest ∧
  decodeWord 0x00000004#32 = .ok .pred ∧ decodeWord 0x00000008#32 = .ok .keyloadA ∧
  decodeWord 0x00000108#32 = .ok .keyloadB ∧ decodeWord 0x00000010#32 = .ok .pfwd ∧
  decodeWord 0x00000011#32 = .ok .pinv ∧ decodeWord 0x00000020#32 = .ok .encode ∧
  decodeWord 0x00000021#32 = .ok .decode ∧ decodeWord 0x0000007F#32 = .ok .sreset

/-- 30_encoding.md R60, R61: decoding an encoded command gives it back, and a word that decodes is the word of what it
decodes to, so every command has exactly one word. -/
def Obligations.DecodeAndEncodeAgree : Prop :=
  (∀ i : Instr, i.wellFormed = true → decodeWord (encode i) = .ok i) ∧
  (∀ (w : Word) (i : Instr), decodeWord w = .ok i → encode i = w)

/-- 30_encoding.md R64, 60_exceptions.md R188: a word is legal exactly when it is one of the twelve; any other word written to
`CMD` raises `IllegalCommand` and has no other effect. -/
def Obligations.OtherWordsRaiseIllegalCommand : Prop :=
  (∀ w : Word, (∃ i, decodeWord w = .ok i) ↔ w ∈ legalWords) ∧
  (∀ s w rest, s.pending = commandWrite w :: rest → w ∉ legalWords →
    step s = .next { s with pending := rest, errcode := 5#8, errlog := s.errlog ||| 0x10#32, done := true })

/-- 00_scope.md R8, 10_state.md R16: a `CMD` write of a word that decodes runs the command, the access taken off the host's
list first; nothing else is around it. `withFetchWord` is such a write. -/
def Obligations.StepRunsTheDecodedCommand : Prop :=
  (∀ s w rest i, s.pending = commandWrite w :: rest → decodeWord w = .ok i →
    step s = exec i { s with pending := rest }) ∧
  (∀ s w i, decodeTableWord 32 w = some i → step (s.withFetchWord 32 w) = exec i s)

/-! ## The host port -/

/-- 20_memory.md R41, R43, R53: `RD`. A performed read at each offset of the register map returns the value of the register
there and changes nothing (`ID` is a constant, `CMD` reads 0); any other read returns 0 and sets `ERRLOG` bit 8. The second
clause ties the names of the registers to the same reads. -/
def Obligations.HostReadReturnsTheRegister : Prop :=
  ∀ s off n rest, s.pending = PortEvent.rd off n :: rest →
    (∀ v : Word, n = 4 →
      (off, v) ∈
        [(0x00#8, 0x524F5801#32), (0x04#8, 0#32), (0x08#8, statusWord s), (0x0C#8, s.errlog),
          (0x10#8, s.a), (0x14#8, s.b), (0x18#8, s.m), (0x1C#8, s.r),
          (0x20#8, s.p), (0x24#8, s.q), (0x28#8, s.e), (0x2C#8, s.n),
          (0x30#8, s.phi), (0x34#8, s.crtC), (0x38#8, s.crtD), (0x3C#8, s.dexp),
          (0x40#8, s.x0), (0x44#8, s.cwX), (0x48#8, s.cwP), (0x4C#8, s.cur), (0x50#8, s.stepReg)] →
      step s = .next { s with pending := rest, returned := s.returned ++ [v] }) ∧
    (∀ g, n = 4 → off = Reg.offset g →
      step s = .next { s with pending := rest, returned := s.returned ++ [readReg s g] }) ∧
    (n ≠ 4 ∨ off.toNat % 4 ≠ 0 ∨ 0x54 ≤ off.toNat →
      step s = .next
        { s with pending := rest, returned := s.returned ++ [0#32], errlog := s.errlog ||| 0x100#32 })

/-- 20_memory.md R42, R45: a write of another width, at an offset that is no multiple of 4, at a reserved offset or to a
read-only register changes no register, issues no command and sets `ERRLOG` bit 8. -/
def Obligations.RefusedWritesOnlyLogBusError : Prop :=
  ∀ s off n v rest, s.pending = PortEvent.wr off n v :: rest →
    (n ≠ 4 ∨ off.toNat % 4 ≠ 0 ∨ 0x54 ≤ off.toNat ∨
      off ∈ [0x00#8, 0x08#8, 0x1C#8, 0x2C#8, 0x30#8, 0x34#8, 0x38#8, 0x3C#8, 0x4C#8, 0x50#8]) →
    step s = .next { s with pending := rest, errlog := s.errlog ||| 0x100#32 }

/-- 20_memory.md R44: the effect of a performed write, by register class. -/
def Obligations.HostWriteByRegisterClass : Prop :=
  ∀ s off v rest, s.pending = PortEvent.wr off 4 v :: rest →
    (off = 0x10#8 → step s = .next { s with pending := rest, a := v }) ∧
    (off = 0x14#8 → step s = .next { s with pending := rest, b := v }) ∧
    (off = 0x18#8 → step s = .next { s with pending := rest, m := v }) ∧
    (off = 0x40#8 → step s = .next { s with pending := rest, x0 := v }) ∧
    (off = 0x20#8 → step s = .next
      { s with pending := rest, p := v, keyv := false, n := 0#32, phi := 0#32, crtC := 0#32, crtD := 0#32, dexp := 0#32 }) ∧
    (off = 0x24#8 → step s = .next
      { s with pending := rest, q := v, keyv := false, n := 0#32, phi := 0#32, crtC := 0#32, crtD := 0#32, dexp := 0#32 }) ∧
    (off = 0x28#8 → step s = .next
      { s with pending := rest, e := v, keyv := false, n := 0#32, phi := 0#32, crtC := 0#32, crtD := 0#32, dexp := 0#32 }) ∧
    (off = 0x44#8 → step s = .next { s with pending := rest, cwX := v, cwvx := true }) ∧
    (off = 0x48#8 → step s = .next { s with pending := rest, cwP := v, cwvp := true }) ∧
    (off = 0x0C#8 → step s = .next { s with pending := rest, errlog := s.errlog &&& ~~~v }) ∧
    (off = 0x04#8 → ∀ i, decodeWord v = .ok i → step s = exec i { s with pending := rest }) ∧
    (off = 0x04#8 → v ∉ legalWords →
      step s = .next { s with pending := rest, errcode := 5#8, errlog := s.errlog ||| 0x10#32, done := true }) ∧
    (Reg.access <$> regAt off = some .ro ∨ regAt off = none → off.toNat % 4 = 0 →
      step s = .next { s with pending := rest, errlog := s.errlog ||| 0x100#32 })

/-- 20_memory.md R40: the block decodes the low 8 address bits, so wherever the window stands an offset within it is read back
from its host address. -/
def Obligations.HostAddressesDecodeToOffsets : Prop :=
  (∀ off : Byte, offsetOf (Config.base + off.toNat) = off) ∧
  (∀ g : Reg, offsetOf g.address = g.offset) ∧
  (∀ addr : Nat, offsetOf (addr + Config.window) = offsetOf addr)

/-- 10_state.md R13: the layout of `STATUS`. -/
def Obligations.StatusIsAssembledFromTheFlags : Prop :=
  ∀ s : State,
    (statusWord s).getLsbD 0 = s.done ∧ (statusWord s).getLsbD 1 = decide (s.errcode ≠ 0#8) ∧
    (statusWord s).getLsbD 2 = s.flag ∧ (statusWord s).getLsbD 3 = s.keyv ∧
    (statusWord s).getLsbD 4 = decide (s.var = .b) ∧ (statusWord s).getLsbD 5 = s.cwvx ∧
    (statusWord s).getLsbD 6 = s.cwvp ∧ (statusWord s).getLsbD 7 = false ∧
    (statusWord s).extractLsb' 8 8 = s.errcode ∧ (statusWord s).extractLsb' 16 16 = 0#16

/-- 10_state.md R20: the events that invalidate the key, what they leave, and that the derived registers never belong to
another trapdoor. -/
def Obligations.KeyIsInvalidatedAsStated : Prop :=
  (∀ s g v rest, g ∈ [Reg.p, .q, .e] → s.pending = wrLine g v :: rest →
    ∃ t, step s = .next t ∧ t.keyv = false ∧ derivedKey t = ⟨0#32, 0#32, 0#32, 0#32, 0#32⟩ ∧ t.var = s.var) ∧
  (∀ i s t, i ∈ [Instr.keyloadA, .keyloadB] → exec i s = .next t → t.errcode = 1#8 →
    t.keyv = false ∧ derivedKey t = ⟨0#32, 0#32, 0#32, 0#32, 0#32⟩ ∧ t.var = s.var) ∧
  (∀ s t, exec .sreset s = .next t → t.keyv = false ∧ derivedKey t = ⟨0#32, 0#32, 0#32, 0#32, 0#32⟩) ∧
  (∀ s t rest, s.pending = PortEvent.resetInput :: rest → step s = .next t →
    t.keyv = false ∧ derivedKey t = ⟨0#32, 0#32, 0#32, 0#32, 0#32⟩) ∧
  (∀ i s, i ∈ [Instr.pfwd, .pinv, .qrtest, .encode, .decode] → s.keyv = false →
    ∃ t, exec i s = .next t ∧ t.errcode = 6#8) ∧
  (∀ s t, KeyConsistent s → step s = .next t → KeyConsistent t)

/-- 10_state.md R14, 60_exceptions.md R196: no bit of the log is ever lost but by a `WR ERRLOG`, `SRESET` or the reset input,
and acknowledging touches nothing else. -/
def Obligations.ErrorLogIsSticky : Prop :=
  (∀ s t, step s = .next t → (∀ v rest, s.pending ≠ wrLine .errlog v :: rest) →
    (∀ rest, s.pending ≠ cmdLine .sreset :: rest) → (∀ rest, s.pending ≠ PortEvent.resetInput :: rest) →
    s.errlog &&& t.errlog = s.errlog) ∧
  (∀ (s : State) mask rest, s.pending = ackLines mask ++ rest →
    step s = .next { s with pending := rest, errlog := s.errlog &&& ~~~mask })

/-! ## The number-theory commands and the predicate -/

/-- 45_system.md R160: `NOP` completes and does nothing else. -/
def Obligations.NopOnlyCompletes : Prop :=
  encode .nop = 0x00000000#32 ∧ ∀ s, exec .nop s = .next { s with errcode := 0#8, done := true }

/-- 40_number_theory.md R83: `R <- A^B mod M`, or `ZeroModulus`. -/
def Obligations.ModpowWritesThePower : Prop :=
  encode .modpow = 0x00000001#32 ∧
  (∀ s, s.m ≠ 0#32 →
    exec .modpow s = .next
      { s with r := BitVec.ofNat 32 (s.a.toNat ^ s.b.toNat % s.m.toNat), errcode := 0#8, done := true }) ∧
  (∀ s, s.m = 0#32 →
    exec .modpow s = .next { s with errcode := 7#8, errlog := s.errlog ||| 0x40#32, done := true })

/-- 40_number_theory.md R85 with R84: `R` takes the unique inverse below `M`; `ZeroModulus` and `NotInvertible` otherwise. -/
def Obligations.ModinvWritesTheInverse : Prop :=
  encode .modinv = 0x00000002#32 ∧
  (∀ s, s.m ≠ 0#32 → Nat.Coprime s.a.toNat s.m.toNat →
    ∃ t : Word, t.toNat < s.m.toNat ∧ s.a.toNat * t.toNat ≡ 1 [MOD s.m.toNat] ∧
      (∀ u < s.m.toNat, s.a.toNat * u ≡ 1 [MOD s.m.toNat] → u = t.toNat) ∧
      exec .modinv s = .next { s with r := t, errcode := 0#8, done := true }) ∧
  (∀ s, s.m ≠ 0#32 → ¬ Nat.Coprime s.a.toNat s.m.toNat →
    exec .modinv s = .next { s with errcode := 8#8, errlog := s.errlog ||| 0x80#32, done := true }) ∧
  (∀ s, s.m = 0#32 →
    exec .modinv s = .next { s with errcode := 7#8, errlog := s.errlog ||| 0x40#32, done := true })

/-- 43_predicate.md R130, R131: `FLAG` is the parity of the number of ones of `A`. -/
def Obligations.PredWritesTheParityOfTheOnes : Prop :=
  encode .pred = 0x00000004#32 ∧ ∀ s, exec .pred s = .next
    { s with flag := decide (popcount s.a % 2 = 1), errcode := 0#8, done := true }

/-- 43_predicate.md R132: `PRED` depends on `A` alone; the predicate is additive and every bit flips it. -/
def Obligations.PredicateIsAdditive : Prop :=
  (∀ s s' t t', s.a = s'.a → exec .pred s = .next t → exec .pred s' = .next t' → t.flag = t'.flag) ∧
  (∀ x y : Word, parity32 (x ^^^ y) = Bool.xor (parity32 x) (parity32 y)) ∧
  (∀ (x : Word) (k : Nat), k < 32 → parity32 (x ^^^ (1#32 <<< k)) = !parity32 x)

/-! ## The key store -/

/-- 41_trapdoor_key.md R101: `KEYLOAD` in both forms derives the constants of an acceptable trapdoor, and zeroes the key and
raises `TrapdoorRejected` for any other; repeated, it changes nothing. A CRT coefficient is named by its residues, which fix
it below `P * Q`. -/
def Obligations.KeyloadDerivesOrRejects : Prop :=
  (encode .keyloadA = 0x00000008#32 ∧ encode .keyloadB = 0x00000108#32) ∧
  (∀ s, KeyAcceptable .a s.p s.q s.e →
    ∃ c d : Word, c.toNat < s.p.toNat * s.q.toNat ∧ c.toNat % s.p.toNat = 1 ∧ c.toNat % s.q.toNat = 0 ∧
      d.toNat < s.p.toNat * s.q.toNat ∧ d.toNat % s.p.toNat = 0 ∧ d.toNat % s.q.toNat = 1 ∧
      exec .keyloadA s = .next
        { s with
          n := BitVec.ofNat 32 (s.p.toNat * s.q.toNat)
          phi := BitVec.ofNat 32 ((s.p.toNat - 1) * (s.q.toNat - 1))
          crtC := c, crtD := d, dexp := 0#32, var := .a, keyv := true, errcode := 0#8, done := true }) ∧
  (∀ s, KeyAcceptable .b s.p s.q s.e →
    ∃ c d x : Word, c.toNat < s.p.toNat * s.q.toNat ∧ c.toNat % s.p.toNat = 1 ∧ c.toNat % s.q.toNat = 0 ∧
      d.toNat < s.p.toNat * s.q.toNat ∧ d.toNat % s.p.toNat = 0 ∧ d.toNat % s.q.toNat = 1 ∧
      x.toNat < (s.p.toNat - 1) * (s.q.toNat - 1) ∧
      s.e.toNat * x.toNat ≡ 1 [MOD (s.p.toNat - 1) * (s.q.toNat - 1)] ∧
      exec .keyloadB s = .next
        { s with
          n := BitVec.ofNat 32 (s.p.toNat * s.q.toNat)
          phi := BitVec.ofNat 32 ((s.p.toNat - 1) * (s.q.toNat - 1))
          crtC := c, crtD := d, dexp := x, var := .b, keyv := true, errcode := 0#8, done := true }) ∧
  (∀ s, ¬ KeyAcceptable .a s.p s.q s.e →
    exec .keyloadA s = .next
      { s with
        keyv := false, n := 0#32, phi := 0#32, crtC := 0#32, crtD := 0#32, dexp := 0#32
        errcode := 1#8, errlog := s.errlog ||| 0x1#32, done := true }) ∧
  (∀ s, ¬ KeyAcceptable .b s.p s.q s.e →
    exec .keyloadB s = .next
      { s with
        keyv := false, n := 0#32, phi := 0#32, crtC := 0#32, crtD := 0#32, dexp := 0#32
        errcode := 1#8, errlog := s.errlog ||| 0x1#32, done := true }) ∧
  (∀ i s t, i ∈ [Instr.keyloadA, .keyloadB] → exec i s = .next t → t.errcode = 0#8 → exec i t = .next t)

/-- 41_trapdoor_key.md R102: the properties of the constants a successful `KEYLOAD` leaves, which are the unique such
residues. -/
def Obligations.DerivedConstantsHaveTheirProperties : Prop :=
  ∀ i s t, i ∈ [Instr.keyloadA, .keyloadB] → exec i s = .next t → t.errcode = 0#8 →
    t.crtC.toNat % t.p.toNat = 1 ∧ t.crtC.toNat % t.q.toNat = 0 ∧
    t.crtD.toNat % t.p.toNat = 0 ∧ t.crtD.toNat % t.q.toNat = 1 ∧
    t.crtC.toNat < t.n.toNat ∧ t.crtD.toNat < t.n.toNat ∧
    (∀ c < t.n.toNat, c % t.p.toNat = 1 → c % t.q.toNat = 0 → c = t.crtC.toNat) ∧
    (∀ d < t.n.toNat, d % t.p.toNat = 0 → d % t.q.toNat = 1 → d = t.crtD.toNat) ∧
    (t.crtC.toNat + t.crtD.toNat) % t.n.toNat = 1 ∧
    (t.var = .b → t.e.toNat * t.dexp.toNat % t.phi.toNat = 1 % t.phi.toNat ∧ t.dexp.toNat < t.phi.toNat)

/-- 41_trapdoor_key.md R104: no command but `KEYLOAD` and `SRESET`, and no access but a write to `P`, `Q`, `E` and a reset,
writes a key register or ends the key. -/
def Obligations.KeyPersists : Prop :=
  (∀ i s t, exec i s = .next t → i ∉ [Instr.keyloadA, .keyloadB, .sreset] →
    t.p = s.p ∧ t.q = s.q ∧ t.e = s.e ∧ derivedKey t = derivedKey s ∧ t.var = s.var ∧ t.keyv = s.keyv) ∧
  (∀ s t, step s = .next t →
    (∀ g v rest, g ∈ [Reg.p, .q, .e] → s.pending ≠ wrLine g v :: rest) →
    (∀ i rest, i ∈ [Instr.keyloadA, .keyloadB, .sreset] → s.pending ≠ cmdLine i :: rest) →
    (∀ rest, s.pending ≠ PortEvent.resetInput :: rest) →
    t.p = s.p ∧ t.q = s.q ∧ t.e = s.e ∧ derivedKey t = derivedKey s ∧ t.var = s.var ∧ t.keyv = s.keyv)

/-- 10_state.md R26, R20; 60_exceptions.md R182, R189: while no key is valid every key user raises `NoKey`, with its whole
effect, and only a `KEYLOAD` that completes without error ends that. -/
def Obligations.NoKeyUntilAKeyloadSucceeds : Prop :=
  State.reset.keyv = false ∧
  (∀ s t, s.keyv = false → step s = .next t → t.keyv = true →
    ∃ i rest, i ∈ [Instr.keyloadA, .keyloadB] ∧ s.pending = cmdLine i :: rest ∧ t.errcode = 0#8) ∧
  (∀ i s, i ∈ [Instr.qrtest, .pfwd, .pinv, .encode, .decode] → s.keyv = false →
    exec i s = .next
      { s with
        errcode := 6#8, errlog := s.errlog ||| 0x20#32, done := true
        flag := if i = .qrtest ∨ i = .decode then false else s.flag })

/-! ## The permutation -/

/-- 42_permutation.md R110, R111: `R <- A^2 mod N` under variant (a), `A^E mod N` under variant (b); `NoKey` without a key. -/
def Obligations.PfwdAppliesThePermutation : Prop :=
  encode .pfwd = 0x00000010#32 ∧
  (∀ s, s.keyv = true → KeyConsistent s → s.var = .a →
    exec .pfwd s = .next
      { s with r := BitVec.ofNat 32 (s.a.toNat ^ 2 % s.n.toNat), errcode := 0#8, done := true }) ∧
  (∀ s, s.keyv = true → KeyConsistent s → s.var = .b →
    exec .pfwd s = .next
      { s with r := BitVec.ofNat 32 (s.a.toNat ^ s.e.toNat % s.n.toNat), errcode := 0#8, done := true }) ∧
  (∀ s, s.keyv = false →
    exec .pfwd s = .next { s with errcode := 6#8, errlog := s.errlog ||| 0x20#32, done := true }) ∧
  (∀ s x, s.keyv = true → KeyConsistent s → (fwd s x).toNat < s.n.toNat)

/-- 42_permutation.md R113: under variant (b) `PINV` raises `A` to the private exponent and cannot fail. -/
def Obligations.PinvRaisesToThePrivateExponent : Prop :=
  ∀ s, s.keyv = true → KeyConsistent s → s.var = .b →
    exec .pinv s = .next
      { s with r := BitVec.ofNat 32 (s.a.toNat ^ s.dexp.toNat % s.n.toNat), errcode := 0#8, done := true }

/-- 42_permutation.md R112: under variant (a) `PINV` tries the four candidates in the order `++`, `+-`, `-+`, `--` and answers
the first whose square is `A mod N`; if none is, it raises `InversionFailed`. -/
def Obligations.PinvTakesTheFirstValidCandidate : Prop :=
  ∀ s, s.keyv = true → KeyConsistent s → s.var = .a →
    let n := s.n.toNat
    let x := s.a.toNat ^ ((s.p.toNat + 1) / 4) % s.p.toNat
    let y := s.a.toNat ^ ((s.q.toNat + 1) / 4) % s.q.toNat
    let u := s.crtC.toNat * x % n
    let w := s.crtD.toNat * y % n
    let cand : List Nat := [(u + w) % n, (u + n - w) % n, (n - u + w) % n, (n - u + n - w) % n]
    exec .pinv s =
      match cand.find? fun c => c * c % n == s.a.toNat % n with
      | some c => .next { s with r := BitVec.ofNat 32 c, errcode := 0#8, done := true }
      | none => .next { s with errcode := 3#8, errlog := s.errlog ||| 0x4#32, done := true }

/-- 42_permutation.md R116: `FLAG` says whether the roots of `A` modulo `P` and modulo `Q`, squared, give `A` back; without a
variant (a) key `NoKey` is raised and `FLAG` cleared. -/
def Obligations.QrtestChecksBothRoots : Prop :=
  (∀ s, s.keyv = true → KeyConsistent s → s.var = .a →
    let x := s.a.toNat ^ ((s.p.toNat + 1) / 4) % s.p.toNat
    let y := s.a.toNat ^ ((s.q.toNat + 1) / 4) % s.q.toNat
    exec .qrtest s = .next
      { s with
        flag := decide (x * x % s.p.toNat = s.a.toNat % s.p.toNat ∧ y * y % s.q.toNat = s.a.toNat % s.q.toNat)
        errcode := 0#8, done := true }) ∧
  (∀ s, s.keyv = false ∨ s.var = .b →
    exec .qrtest s = .next
      { s with flag := false, errcode := 6#8, errlog := s.errlog ||| 0x20#32, done := true })

/-- 42_permutation.md R116, for a key made of primes: `FLAG` is true exactly when `A` is a square modulo `P` and modulo `Q`. -/
def Obligations.QrtestDecidesSquares : Prop :=
  ∀ s, PrimeKey s → s.var = .a →
    ∃ t, exec .qrtest s = .next t ∧ t.errcode = 0#8 ∧
      (t.flag = true ↔ IsSquareMod s.p.toNat s.a.toNat ∧ IsSquareMod s.q.toNat s.a.toNat)

/-- 42_permutation.md R117: for a variant (a) key made of primes, the root of a residue, the four candidates, their agreement
with the residue test, and the candidate that is answered, which is the principal root. -/
def Obligations.CandidatesAgreeWithTheResidueTest : Prop :=
  ∀ s, PrimeKey s → s.var = .a → ∀ a : Word,
    let cand := candidates s (reduce a.toNat s.n)
    let valid := fun c : Word => c.toNat * c.toNat ≡ a.toNat [MOD s.n.toNat]
    (∀ p ∈ [s.p, s.q],
      (rootMod a p).toNat * (rootMod a p).toNat ≡ a.toNat * a.toNat ^ ((p.toNat - 1) / 2) [MOD p.toNat] ∧
      (IsSquareMod p.toNat a.toNat → (rootMod a p).toNat * (rootMod a p).toNat ≡ a.toNat [MOD p.toNat]) ∧
      (¬ IsSquareMod p.toNat a.toNat →
        (rootMod a p).toNat * (rootMod a p).toNat + a.toNat ≡ 0 [MOD p.toNat])) ∧
    (∃ z, ∀ c ∈ cand, c.toNat * c.toNat % s.n.toNat = z) ∧
    ((∀ c ∈ cand, valid c) ∨ (∀ c ∈ cand, ¬ valid c)) ∧
    ((∀ c ∈ cand, valid c) ↔ qr s a = true) ∧
    (inv s a = none ↔ qr s a = false) ∧
    (qr s a = true → ∃ c, inv s a = some c ∧ cand.head? = some c ∧
      c.toNat ≡ (rootMod a s.p).toNat [MOD s.p.toNat] ∧ c.toNat ≡ (rootMod a s.q).toNat [MOD s.q.toNat] ∧
      IsSquareMod s.p.toNat c.toNat ∧ IsSquareMod s.q.toNat c.toNat ∧
      ∀ r < s.n.toNat, r * r ≡ a.toNat [MOD s.n.toNat] → IsSquareMod s.p.toNat r → IsSquareMod s.q.toNat r →
        r = c.toNat)

/-- 42_permutation.md R118, variant (b): the inverse undoes the forward step on every `x` below `N`, and gives `x mod N` for
any other. -/
def Obligations.RoundTripUnderVariantB : Prop :=
  ∀ s, PrimeKey s → s.var = .b →
    (∀ x : Word, x.toNat < s.n.toNat → inv s (fwd s x) = some x) ∧
    (∀ x : Word, inv s (fwd s x) = some (BitVec.ofNat 32 (x.toNat % s.n.toNat)))

/-- 42_permutation.md R118, variant (a): the inverse undoes the forward step exactly on the domain, the squares below `N`, and
gives the principal root of `x^2`, a different number, elsewhere. -/
def Obligations.RoundTripUnderVariantA : Prop :=
  ∀ s, PrimeKey s → s.var = .a →
    (∀ x : Word, InDomain s x → inv s (fwd s x) = some x) ∧
    (∀ x : Word, ¬ InDomain s x → ∃ y, inv s (fwd s x) = some y ∧ y ≠ x ∧ InDomain s y ∧
      y.toNat * y.toNat ≡ x.toNat * x.toNat [MOD s.n.toNat])

/-- 42_permutation.md R118: in both variants the forward step maps the domain one-to-one onto itself. -/
def Obligations.ForwardStepPermutesTheDomain : Prop :=
  ∀ s, PrimeKey s →
    (∀ x, InDomain s x → InDomain s (fwd s x)) ∧
    (∀ x y, InDomain s x → InDomain s y → fwd s x = fwd s y → x = y) ∧
    (∀ y, InDomain s y → ∃ x, InDomain s x ∧ fwd s x = y)

/-- 42_permutation.md R119: forward step, inverse and residue test see the residue class of their operand only. -/
def Obligations.OperandsAreReducedModuloN : Prop :=
  ∀ s (x y : Word), s.keyv = true → KeyConsistent s → x.toNat ≡ y.toNat [MOD s.n.toNat] →
    fwd s x = fwd s y ∧ inv s x = inv s y ∧ qr s x = qr s y

/-! ## The codec -/

/-- 44_codec.md R135, R136; 30_encoding.md R66: `ENCODE` publishes the 31st forward image of the seed and the 32 predicate
bits of the iterates, the oldest in bit 31. -/
def Obligations.EncodeRecordsTheOrbit : Prop :=
  encode .encode = 0x00000020#32 ∧
  (∀ s, s.keyv = true →
    ∃ w : Word, (∀ i < 32, w.getLsbD (31 - i) = parity32 ((fwd s)^[i] s.x0)) ∧
      exec .encode s = .next
        { s with
          cwX := (fwd s)^[31] s.x0, cwP := w, cur := (fwd s)^[31] s.x0, stepReg := 32#32
          cwvx := true, cwvp := true, errcode := 0#8, done := true }) ∧
  (∀ s, s.keyv = false →
    exec .encode s = .next { s with errcode := 6#8, errlog := s.errlog ||| 0x20#32, done := true })

/-- 44_codec.md R138, R139: every outcome of `DECODE`. `c 0, c 1, ..` are the values the loop holds; after `m` passed steps it
ends as a member, by a failed check (no inversion attempted) or by a failed inversion, and one of the three always comes. -/
def Obligations.DecodeEndsInOneOfItsOutcomes : Prop :=
  encode .decode = 0x00000021#32 ∧
  (∀ s, s.keyv = false →
    exec .decode s = .next
      { s with flag := false, errcode := 6#8, errlog := s.errlog ||| 0x20#32, done := true }) ∧
  (∀ s, s.keyv = true → s.cwvx = false ∨ s.cwvp = false →
    exec .decode s = .next
      { s with flag := false, errcode := 4#8, errlog := s.errlog ||| 0x8#32, done := true }) ∧
  (∀ s, s.keyv = true → s.cwvx = true → s.cwvp = true → ∀ (c : Nat → Word) (m : Nat), c 0 = s.cwX → m ≤ 32 →
    (∀ i < m, parity32 (c i) = s.cwP.getLsbD i ∧ inv s (c i) = some (c (i + 1))) →
    (m = 32 → exec .decode s = .next
      { s with
        flag := true, stepReg := 32#32, cur := c 32, cwvx := false, cwvp := false, errcode := 0#8, done := true }) ∧
    (m < 32 → parity32 (c m) ≠ s.cwP.getLsbD m → exec .decode s = .next
      { s with
        flag := false, stepReg := BitVec.ofNat 32 m, cur := c m, cwvx := false, cwvp := false
        errcode := 0#8, done := true }) ∧
    (m < 32 → parity32 (c m) = s.cwP.getLsbD m → inv s (c m) = none → exec .decode s = .next
      { s with
        flag := false, stepReg := BitVec.ofNat 32 (m + 1), cur := c m, cwvx := false, cwvp := false
        errcode := 3#8, errlog := s.errlog ||| 0x4#32, done := true })) ∧
  (∀ s : State, ∃ (c : Nat → Word) (m : Nat), c 0 = s.cwX ∧ m ≤ 32 ∧
    (∀ i < m, parity32 (c i) = s.cwP.getLsbD i ∧ inv s (c i) = some (c (i + 1))) ∧
    (m = 32 ∨ parity32 (c m) ≠ s.cwP.getLsbD m ∨ inv s (c m) = none)) ∧
  (∀ (s : State) (x : Word), s.var = .b → inv s x ≠ none)

/-- 70_reset_and_hazards.md R216: a `DECODE` that passes its validity check consumes both valid flags, one that raises `NoKey`
or `LengthMismatch` consumes neither, and the codeword itself is never changed by it. -/
def Obligations.DecodeConsumesTheCodeword : Prop :=
  ∀ s t, exec .decode s = .next t →
    t.cwX = s.cwX ∧ t.cwP = s.cwP ∧
    (s.keyv = true → s.cwvx = true → s.cwvp = true → t.cwvx = false ∧ t.cwvp = false) ∧
    (s.keyv = false ∨ s.cwvx = false ∨ s.cwvp = false →
      t.cwvx = s.cwvx ∧ t.cwvp = s.cwvp ∧ t.cur = s.cur ∧ t.stepReg = s.stepReg)

/-- 44_codec.md R140: a codeword built from a seed in the domain is a member under the key that built it; the value before the
last inversion is the seed. -/
def Obligations.EncodedSeedDecodesAsMember : Prop :=
  ∀ s, PrimeKey s → InDomain s s.x0 →
    ∃ t u, exec .encode s = .next t ∧ exec .decode t = .next u ∧
      u.flag = true ∧ u.stepReg = 32#32 ∧ u.errcode = 0#8 ∧ inv s s.x0 = some u.cur

/-- 44_codec.md R140, 70_reset_and_hazards.md R220: for any seed, the decoder comes back to the seed's stand-in in the domain,
and the block is a member exactly when the two have the same parity, rejected at check 31 otherwise. -/
def Obligations.SeedOutsideTheDomainIsJudgedByParity : Prop :=
  ∀ s, PrimeKey s →
    ∃ z y t u, inv s (fwd s s.x0) = some z ∧ inv s z = some y ∧
      exec .encode s = .next t ∧ exec .decode t = .next u ∧ u.errcode = 0#8 ∧
      (parity32 z = parity32 s.x0 → u.flag = true ∧ u.stepReg = 32#32 ∧ u.cur = y) ∧
      (parity32 z ≠ parity32 s.x0 → u.flag = false ∧ u.stepReg = 31#32 ∧ u.cur = z)

/-- 44_codec.md R142: the codewords that are members under every valid key, and the aliases of a codeword. -/
def Obligations.FixedPointsAndAliasesOfTheDecoder : Prop :=
  (∀ s, s.keyv = true → KeyConsistent s → s.cwvx = true → s.cwvp = true → s.cwX = 0#32 → s.cwP = 0#32 →
    ∃ t, exec .decode s = .next t ∧ t.flag = true ∧ t.stepReg = 32#32 ∧ t.cur = 0#32 ∧ t.errcode = 0#8) ∧
  (∀ s, s.keyv = true → KeyConsistent s → s.cwvx = true → s.cwvp = true → s.cwX = 1#32 → s.cwP = 0xFFFFFFFF#32 →
    ∃ t, exec .decode s = .next t ∧ t.flag = true ∧ t.stepReg = 32#32 ∧ t.cur = 1#32 ∧ t.errcode = 0#8) ∧
  (∀ s, s.keyv = true → KeyConsistent s → s.var = .b → s.e.toNat % 2 = 1 → s.cwvx = true → s.cwvp = true →
    s.cwX = s.n - 1#32 → s.cwP = (if parity32 (s.n - 1#32) then 0xFFFFFFFF#32 else 0#32) →
    ∃ t, exec .decode s = .next t ∧ t.flag = true ∧ t.stepReg = 32#32 ∧ t.cur = s.n - 1#32 ∧ t.errcode = 0#8) ∧
  (∀ s t t', s.keyv = true → KeyConsistent s → s.cwX.toNat + s.n.toNat < 2 ^ 32 →
    parity32 (s.cwX + s.n) = parity32 s.cwX →
    exec .decode s = .next t → exec .decode { s with cwX := s.cwX + s.n } = .next t' →
    t'.flag = t.flag ∧ t'.stepReg = t.stepReg ∧ t'.errcode = t.errcode)

/-- 44_codec.md R143: whatever the key and the x field, at most one of the `2^32` p fields makes a member. -/
def Obligations.DecoderAcceptsAtMostOnePredicateField : Prop :=
  ∀ (s t t' : State) (w w' : Word),
    exec .decode { s with cwP := w } = .next t → exec .decode { s with cwP := w' } = .next t' →
    t.flag = true → t'.flag = true → w = w'

/-! ## Errors, flags, frames -/

/-- 60_exceptions.md R189: a command that needs a key raises `NoKey` without one, `QRTEST` also under a variant (b) key, and
does nothing else. -/
def Obligations.KeyUsersRaiseNoKey : Prop :=
  (∀ i s, i ∈ [Instr.pfwd, .pinv, .encode] → s.keyv = false →
    exec i s = .next { s with errcode := 6#8, errlog := s.errlog ||| 0x20#32, done := true }) ∧
  (∀ s, s.keyv = false →
    exec .decode s = .next
      { s with flag := false, errcode := 6#8, errlog := s.errlog ||| 0x20#32, done := true }) ∧
  (∀ s, s.keyv = false ∨ s.var = .b →
    exec .qrtest s = .next
      { s with flag := false, errcode := 6#8, errlog := s.errlog ||| 0x20#32, done := true })

/-- 10_state.md R28: who writes `FLAG`, and what. -/
def Obligations.FlagIsWrittenAsStated : Prop :=
  (∀ i s t, exec i s = .next t → i ∉ [Instr.pred, .qrtest, .decode, .sreset] → t.flag = s.flag) ∧
  (∀ s t, exec .pred s = .next t → t.flag = parity32 s.a) ∧
  (∀ s t, exec .qrtest s = .next t → t.flag = if t.errcode = 0#8 then qr s s.a else false) ∧
  (∀ s t, exec .decode s = .next t →
    (t.flag = true ↔ s.keyv = true ∧ s.cwvx = true ∧ s.cwvp = true ∧
      ∃ c, decodeLoop (inv s) s.cwP 32 0 s.cwX = .member c) ∧
    (t.errcode ≠ 0#8 → t.flag = false)) ∧
  (∀ s t, exec .sreset s = .next t → t.flag = false) ∧
  (∀ s t rest, s.pending = PortEvent.resetInput :: rest → step s = .next t → t.flag = false) ∧
  (∀ s t w rest, s.pending = commandWrite w :: rest → w ∉ legalWords → step s = .next t → t.flag = s.flag)

/-- 10_state.md R11, R17, R18, R21: the engine never writes `A`, `B`, `M`, `P`, `Q`, `E`, `X0`; `R` is written by its four
commands on success only. -/
def Obligations.EngineNeverWritesOperands : Prop :=
  (∀ i s t, exec i s = .next t → i ≠ .sreset →
    t.a = s.a ∧ t.b = s.b ∧ t.m = s.m ∧ t.p = s.p ∧ t.q = s.q ∧ t.e = s.e ∧ t.x0 = s.x0) ∧
  (∀ i s t, exec i s = .next t → i ≠ .sreset →
    t.errcode ≠ 0#8 ∨ i ∉ [Instr.modpow, .modinv, .pfwd, .pinv] → t.r = s.r)

/-- 30_encoding.md R63, the frame of the commands whose one destination is `R`: nothing but `R`, `ERRCODE`, `ERRLOG` and
`DONE` changes. -/
def Obligations.FrameOfResultCommands : Prop :=
  ∀ i s t, i ∈ [Instr.modpow, .modinv, .pfwd, .pinv] → exec i s = .next t →
    t = { s with r := t.r, errcode := t.errcode, errlog := t.errlog, done := true }

/-- 30_encoding.md R63, the frame of `NOP`, `PRED` and `QRTEST`: nothing but `FLAG`, `ERRCODE`, `ERRLOG` and `DONE` changes,
and `NOP` leaves `FLAG` and `ERRLOG` alone too. -/
def Obligations.FrameOfFlagCommands : Prop :=
  (∀ i s t, i ∈ [Instr.nop, .pred, .qrtest] → exec i s = .next t →
    t = { s with flag := t.flag, errcode := t.errcode, errlog := t.errlog, done := true }) ∧
  (∀ s t, exec .nop s = .next t → t.flag = s.flag ∧ t.errlog = s.errlog)

/-- 30_encoding.md R63, the frame of `KEYLOAD`: nothing but the derived key registers, `VAR`, `KEYV`, `ERRCODE`, `ERRLOG` and
`DONE` changes. -/
def Obligations.FrameOfKeyload : Prop :=
  ∀ i s t, i ∈ [Instr.keyloadA, .keyloadB] → exec i s = .next t →
    t = { s with
      n := t.n, phi := t.phi, crtC := t.crtC, crtD := t.crtD, dexp := t.dexp, var := t.var, keyv := t.keyv
      errcode := t.errcode, errlog := t.errlog, done := true }

/-- 30_encoding.md R63, the frames of `ENCODE` and `DECODE`. -/
def Obligations.FrameOfCodecCommands : Prop :=
  (∀ s t, exec .encode s = .next t →
    t = { s with
      cwX := t.cwX, cwP := t.cwP, cur := t.cur, stepReg := t.stepReg, cwvx := t.cwvx, cwvp := t.cwvp
      errcode := t.errcode, errlog := t.errlog, done := true }) ∧
  (∀ s t, exec .decode s = .next t →
    t = { s with
      flag := t.flag, cur := t.cur, stepReg := t.stepReg, cwvx := t.cwvx, cwvp := t.cwvp
      errcode := t.errcode, errlog := t.errlog, done := true })

/-- 30_encoding.md R63, 00_scope.md R9: what a command writes depends on the operands it names and on nothing else. -/
def Obligations.CommandsReadOnlyTheirOperands : Prop :=
  (∀ s s' t t', s.a = s'.a → s.b = s'.b → s.m = s'.m →
    exec .modpow s = .next t → exec .modpow s' = .next t' →
    t.errcode = t'.errcode ∧ (t.errcode = 0#8 → t.r = t'.r)) ∧
  (∀ s s' t t', s.a = s'.a → s.m = s'.m →
    exec .modinv s = .next t → exec .modinv s' = .next t' →
    t.errcode = t'.errcode ∧ (t.errcode = 0#8 → t.r = t'.r)) ∧
  (∀ s s' t t', s.keyv = s'.keyv → s.var = s'.var → s.a = s'.a → s.p = s'.p → s.q = s'.q →
    exec .qrtest s = .next t → exec .qrtest s' = .next t' → t.errcode = t'.errcode ∧ t.flag = t'.flag) ∧
  (∀ s s' t t' i, i ∈ [Instr.keyloadA, .keyloadB] → s.p = s'.p → s.q = s'.q → (i = .keyloadB → s.e = s'.e) →
    exec i s = .next t → exec i s' = .next t' →
    t.errcode = t'.errcode ∧ derivedKey t = derivedKey t' ∧ t.keyv = t'.keyv ∧
      (t.errcode = 0#8 → t.var = t'.var)) ∧
  (∀ s s' t t', s.keyv = s'.keyv → s.var = s'.var → s.n = s'.n → (s.var = .b → s.e = s'.e) → s.a = s'.a →
    exec .pfwd s = .next t → exec .pfwd s' = .next t' →
    t.errcode = t'.errcode ∧ (t.errcode = 0#8 → t.r = t'.r)) ∧
  (∀ s s' t t', s.keyv = s'.keyv → s.var = s'.var → s.n = s'.n → (s.var = .b → s.dexp = s'.dexp) →
    (s.var = .a → s.p = s'.p ∧ s.q = s'.q ∧ s.crtC = s'.crtC ∧ s.crtD = s'.crtD) → s.a = s'.a →
    exec .pinv s = .next t → exec .pinv s' = .next t' →
    t.errcode = t'.errcode ∧ (t.errcode = 0#8 → t.r = t'.r)) ∧
  (∀ s s' t t', s.keyv = s'.keyv → s.var = s'.var → s.n = s'.n → (s.var = .b → s.e = s'.e) → s.x0 = s'.x0 →
    exec .encode s = .next t → exec .encode s' = .next t' →
    t.errcode = t'.errcode ∧ (t.errcode = 0#8 →
      t.cwX = t'.cwX ∧ t.cwP = t'.cwP ∧ t.cur = t'.cur ∧ t.stepReg = t'.stepReg)) ∧
  (∀ s s' t t', s.keyv = s'.keyv → s.var = s'.var → s.n = s'.n → (s.var = .b → s.dexp = s'.dexp) →
    (s.var = .a → s.p = s'.p ∧ s.q = s'.q ∧ s.crtC = s'.crtC ∧ s.crtD = s'.crtD) →
    s.cwX = s'.cwX → s.cwP = s'.cwP → s.cwvx = s'.cwvx → s.cwvp = s'.cwvp →
    exec .decode s = .next t → exec .decode s' = .next t' →
    t.errcode = t'.errcode ∧ t.flag = t'.flag ∧ t.cwvx = t'.cwvx ∧ t.cwvp = t'.cwvp ∧
      (t.errcode = 0#8 ∨ t.errcode = 3#8 → t.cur = t'.cur ∧ t.stepReg = t'.stepReg))

/-- 60_exceptions.md R182: `raise`. A command that ends in an error records its code, sets its one log bit and `DONE`, clears
`FLAG` if it is `QRTEST` or `DECODE`, and writes nothing else but in the two cases the rule names; a command that does not
logs nothing. -/
def Obligations.ErrorsArePrecise : Prop :=
  (∀ i s t, exec i s = .next t → t.errcode ≠ 0#8 →
    1 ≤ t.errcode.toNat ∧ t.errcode.toNat ≤ 8 ∧ t.done = true ∧
    t.errlog = s.errlog ||| (1#32 <<< (t.errcode.toNat - 1)) ∧
    (t.flag = if i = .qrtest ∨ i = .decode then false else s.flag)) ∧
  (∀ i s t, exec i s = .next t → t.errcode ≠ 0#8 → i ∉ [Instr.keyloadA, .keyloadB] →
    ¬ (i = .decode ∧ t.errcode = 3#8) →
    t = { s with errcode := t.errcode, errlog := t.errlog, done := true, flag := t.flag }) ∧
  (∀ i s t, exec i s = .next t → t.errcode ≠ 0#8 → i ∈ [Instr.keyloadA, .keyloadB] →
    t = { s with
      keyv := false, n := 0#32, phi := 0#32, crtC := 0#32, crtD := 0#32, dexp := 0#32
      errcode := t.errcode, errlog := t.errlog, done := true }) ∧
  (∀ s t, exec .decode s = .next t → t.errcode = 3#8 →
    t = { s with
      flag := false, cur := t.cur, stepReg := t.stepReg, cwvx := false, cwvp := false
      errcode := 3#8, errlog := t.errlog, done := true }) ∧
  (∀ i s t, exec i s = .next t → t.errcode = 0#8 → i ≠ .sreset → t.errlog = s.errlog)

/-- 10_state.md R13: every command but `SRESET` completes with `DONE = 1`, and `ERRCODE` is one of the codes that command can
raise (60_exceptions.md R181). -/
def Obligations.CommandsCompleteWithTheirOwnCodes : Prop :=
  ∀ i s t, exec i s = .next t → i ≠ .sreset →
    t.done = true ∧
    t.errcode ∈
      match i with
      | .nop | .pred | .sreset => [0#8]
      | .modpow => [0#8, 7#8]
      | .modinv => [0#8, 7#8, 8#8]
      | .keyloadA | .keyloadB => [0#8, 1#8]
      | .pfwd | .qrtest | .encode => [0#8, 6#8]
      | .pinv => [0#8, 3#8, 6#8]
      | .decode => [0#8, 3#8, 4#8, 6#8]

/-! ## The machine as a whole -/

/-- 00_scope.md R8, 70_reset_and_hazards.md R225: every command completes and leaves the host's list alone; every step answers
a next state and uses up the first pending access. With none pending it uses none: that waiting step is the model's choice,
assumption log entry 3. -/
def Obligations.EveryStepCompletes : Prop :=
  (∀ i s, ∃ t, exec i s = .next t ∧ t.pending = s.pending) ∧
  (∀ s, ∃ t, step s = .next t ∧ t.pending = s.pending.tail)

/-- 70_reset_and_hazards.md R225: a run ends when its last access has completed; the block then waits, and nothing changes (the
waiting step is the model's choice, assumption log entry 3). -/
def Obligations.RunEndsWithItsLastAccess : Prop :=
  ∀ s, ∃ t, core.run s.pending.length s = .next t ∧ t.pending = [] ∧
    ∀ k, core.run (s.pending.length + k) s = .next t

/-- 70_reset_and_hazards.md R225: a run is clean exactly when `ERRLOG` is 0 before it, after it and after each of its accesses,
so an error that was acknowledged or wiped by a reset on the way is not hidden (assumption log entry 19). -/
def Obligations.CleanRunsNeverLog : Prop :=
  ∀ s, Clean s ↔ ∀ k ≤ s.pending.length, ∃ t, core.run k s = .next t ∧ t.errlog = 0#32

/-- The invariant holds after reset (10_state.md R26). -/
def Obligations.InvariantHoldsAtReset : Prop := ReachableInv State.reset

/-- Every step keeps the invariant: the derived key registers belong to `P`, `Q`, `E` and `VAR` or are 0 (10_state.md R20), the
reserved codes and bits are never produced (93_implementation_defined.md U13), `STEP` is at most 32 (10_state.md R23). -/
def Obligations.EveryStepKeepsTheInvariant : Prop :=
  ∀ s t, ReachableInv s → step s = .next t → ReachableInv t

/-! ## The boundary -/

/-- 20_memory.md R47: the byte stream of a codeword and its bit string, most significant bit first. -/
def Obligations.CodewordStreamOrder : Prop :=
  (∀ x p : Word, splitBlocks (codewordBytes x p) = some [(x, p)]) ∧
  (∀ (x p : Word) (t : Nat), t < 64 →
    ((codewordBytes x p).flatMap byteBits)[t]? = some (if t < 32 then x.getLsbD (31 - t) else p.getLsbD (63 - t)))

/-- 20_memory.md R48, 49_boundary_collaborators.md R176: a stream splits into codewords exactly when its length is a multiple
of 8 bytes, codeword `j` from bytes `8 j` to `8 j + 7`; plaintext bit `j` is bit `7 - (j mod 8)` of byte `j div 8`; packing
whole bytes is its inverse. -/
def Obligations.StreamsSplitIntoWholeBlocks : Prop :=
  (∀ bytes : List Byte, splitBlocks bytes = none ↔ bytes.length % 8 ≠ 0) ∧
  (∀ blocks : List (Word × Word), splitBlocks (blocks.flatMap fun c => codewordBytes c.1 c.2) = some blocks) ∧
  (∀ (bytes : List Byte) (j : Nat),
    (plaintextBits bytes)[j]? = bytes[j / 8]?.map fun x => x.getLsbD (7 - j % 8)) ∧
  (∀ bytes : List Byte, packBits (plaintextBits bytes) = bytes) ∧
  (∀ (bits : List Bool) (j : Nat), bits.length % 8 = 0 →
    (packBits bits)[j / 8]?.map (fun x => x.getLsbD (7 - j % 8)) = bits[j]?)

/-- 49_boundary_collaborators.md R173, 44_codec.md R141: the plaintext bit the host takes from `STATUS` after a `DECODE` that
consumed its block. The bit for a failed inversion is the open `INVFAIL_BIT`, whatever it is. -/
def Obligations.PlaintextBitComesFromStatus : Prop :=
  ∀ s t, s.keyv = true → s.cwvx = true → s.cwvp = true → exec .decode s = .next t →
    plaintextBit (statusWord t) = some (if t.errcode = 3#8 then Config.invfailBit else t.flag)

/-- 49_boundary_collaborators.md R167: trial division with the wheel decides primality on the whole 32-bit domain. -/
def Obligations.TrialDivisionDecidesPrimality : Prop :=
  ∀ n : Nat, n < 2 ^ 32 → (isPrime n = true ↔ n.Prime)

/-- 49_boundary_collaborators.md R174: when the key is long enough, the ciphertext opens to the plaintext under the key and to
the decoy, padded with spaces, under the decoy key. -/
def Obligations.SymmetricModeOpensBothWays : Prop :=
  ∀ plaintext key decoy : List Byte, plaintext.length ≤ key.length → decoy.length ≤ plaintext.length →
    ∃ c d, symmetricMode plaintext key decoy = some (c, d) ∧
      xorBytes c (key.take plaintext.length) = plaintext ∧
      xorBytes c d = decoy ++ List.replicate (plaintext.length - decoy.length) 0x20#8
end

