-- ==== Sys2Proof/Laws/Arith.lean ====
section
/-!
SUPPORT. Laws/Arith.lean: what `reduce`, `mulmod`, `modpow` and `modinv` compute, as numbers (40_number_theory.md R80 to R84).
Callers cite these and do not unfold the loops.
-/

namespace Sys2Proof.Machine

theorem word_toNat_ne_zero {m : Word} (h : m ≠ 0#32) : m.toNat ≠ 0 := by
  intro h0
  exact h (BitVec.eq_of_toNat_eq (by simpa using h0))

theorem word_toNat_pos {m : Word} (h : m ≠ 0#32) : 0 < m.toNat :=
  Nat.pos_of_ne_zero (word_toNat_ne_zero h)

/-! ## reduce and mulmod -/

theorem reduce_toNat {m : Word} (h : m ≠ 0#32) (x : Nat) : (reduce x m).toNat = x % m.toNat := by
  have hlt : x % m.toNat < 2 ^ 32 := lt_trans (Nat.mod_lt _ (word_toNat_pos h)) m.isLt
  rw [reduce, if_neg h, BitVec.toNat_ofNat, Nat.mod_eq_of_lt hlt]

theorem reduce_lt {m : Word} (h : m ≠ 0#32) (x : Nat) : (reduce x m).toNat < m.toNat := by
  rw [reduce_toNat h]
  exact Nat.mod_lt _ (word_toNat_pos h)

theorem mulmod_toNat {m : Word} (h : m ≠ 0#32) (a b : Word) :
    (mulmod a b m).toNat = a.toNat * b.toNat % m.toNat :=
  reduce_toNat h _

theorem mulmod_lt {m : Word} (h : m ≠ 0#32) (a b : Word) : (mulmod a b m).toNat < m.toNat :=
  reduce_lt h _

/-- The form of 40_number_theory.md R81 on 64-bit values: the product is exact there. -/
theorem mulmod_eq_wide {m : Word} (h : m ≠ 0#32) (a b : Word) :
    mulmod a b m = ((a.setWidth 64 * b.setWidth 64) % m.setWidth 64).setWidth 32 := by
  apply BitVec.eq_of_toNat_eq
  have hprod : a.toNat * b.toNat < 2 ^ 64 := by
    have := Nat.mul_lt_mul'' a.isLt b.isLt
    simpa using this
  have hm : m.toNat < 2 ^ 64 := lt_trans m.isLt (by norm_num)
  have ha : a.toNat < 2 ^ 64 := lt_trans a.isLt (by norm_num)
  have hb : b.toNat < 2 ^ 64 := lt_trans b.isLt (by norm_num)
  have hlt : a.toNat * b.toNat % m.toNat < 2 ^ 32 := lt_trans (Nat.mod_lt _ (word_toNat_pos h)) m.isLt
  rw [mulmod_toNat h, BitVec.toNat_setWidth, BitVec.toNat_umod, BitVec.toNat_mul, BitVec.toNat_setWidth,
    BitVec.toNat_setWidth, BitVec.toNat_setWidth, Nat.mod_eq_of_lt ha, Nat.mod_eq_of_lt hb, Nat.mod_eq_of_lt hm,
    Nat.mod_eq_of_lt hprod, Nat.mod_eq_of_lt hlt]

/-! ## modpow -/

theorem word_ushiftRight_one_toNat (ex : Word) : (ex >>> 1).toNat = ex.toNat / 2 := by
  simp [BitVec.toNat_ushiftRight, Nat.shiftRight_eq_div_pow]

theorem word_getLsbD_zero (ex : Word) : ex.getLsbD 0 = decide (ex.toNat % 2 = 1) := by
  simp [BitVec.getLsbD, Nat.testBit_zero]

/-- The loop's invariant: `result * base ^ ex`, modulo `m`, is what it answers. -/
theorem modpowLoop_toNat {m : Word} (h : m ≠ 0#32) :
    ∀ (k : Nat) (result base ex : Word), ex.toNat < 2 ^ k → result.toNat < m.toNat →
      (modpowLoop m k result base ex).toNat = result.toNat * base.toNat ^ ex.toNat % m.toNat := by
  intro k
  induction k with
  | zero =>
    intro result base ex hex hres
    have : ex.toNat = 0 := by simpa using hex
    simp [modpowLoop, this, Nat.mod_eq_of_lt hres]
  | succ k ih =>
    intro result base ex hex hres
    by_cases h0 : ex = 0#32
    · subst h0
      simp [modpowLoop, Nat.mod_eq_of_lt hres]
    · have hhalf : (ex >>> 1).toNat < 2 ^ k := by
        rw [word_ushiftRight_one_toNat]
        rw [pow_succ] at hex
        omega
      have hsq : ∀ e : Nat, (base.toNat * base.toNat % m.toNat) ^ e ≡ base.toNat ^ (2 * e) [MOD m.toNat] := by
        intro e
        rw [pow_mul, pow_two]
        exact (Nat.mod_modEq _ _).pow e
      rw [modpowLoop, if_neg h0, word_getLsbD_zero]
      by_cases hodd : ex.toNat % 2 = 1
      · rw [if_pos (by simpa using hodd), ih _ _ _ hhalf (mulmod_lt h _ _), mulmod_toNat h, mulmod_toNat h,
          word_ushiftRight_one_toNat]
        have hex2 : ex.toNat = 2 * (ex.toNat / 2) + 1 := by omega
        have : result.toNat * base.toNat ^ ex.toNat
            = result.toNat * base.toNat * base.toNat ^ (2 * (ex.toNat / 2)) := by
          conv_lhs => rw [hex2, pow_succ]
          ring
        rw [this]
        exact (Nat.mod_modEq _ _).mul (hsq _)
      · rw [if_neg (by simpa using hodd), ih _ _ _ hhalf hres, mulmod_toNat h, word_ushiftRight_one_toNat]
        have hex2 : ex.toNat = 2 * (ex.toNat / 2) := by omega
        conv_rhs => rw [hex2]
        exact (Nat.ModEq.refl _).mul (hsq _)

/-- `modpow` is `b^e mod m` (40_number_theory.md R82). -/
theorem modpow_toNat {m : Word} (h : m ≠ 0#32) (b e : Word) :
    (modpow b e m).toNat = b.toNat ^ e.toNat % m.toNat := by
  rw [modpow, modpowLoop_toNat h _ _ _ _ e.isLt (reduce_lt h _), reduce_toNat h, reduce_toNat h]
  have : 1 % m.toNat * (b.toNat % m.toNat) ^ e.toNat ≡ 1 * b.toNat ^ e.toNat [MOD m.toNat] :=
    (Nat.mod_modEq _ _).mul ((Nat.mod_modEq _ _).pow _)
  simpa [Nat.ModEq] using this

theorem modpow_lt {m : Word} (h : m ≠ 0#32) (b e : Word) : (modpow b e m).toNat < m.toNat := by
  rw [modpow_toNat h]
  exact Nat.mod_lt _ (word_toNat_pos h)

/-! ## modinv -/

/-- The coefficients of the Euclidean loop alternate in sign, so their magnitudes add up. -/
theorem abs_sub_mul_of_opposite {u v q : Int} (hq : 0 ≤ q) (hs : u * v ≤ 0) : |u - q * v| = |u| + q * |v| := by
  rcases lt_trichotomy u 0 with hu | hu | hu
  · have hv : 0 ≤ v := by nlinarith
    rw [abs_of_nonpos (by nlinarith), abs_of_neg hu, abs_of_nonneg hv]
    ring
  · rw [hu, zero_sub, abs_neg, abs_mul, abs_of_nonneg hq, abs_zero, zero_add]
  · have hv : v ≤ 0 := by nlinarith
    rw [abs_of_nonneg (by nlinarith), abs_of_pos hu, abs_of_nonpos hv]
    ring

/-- What the Euclidean loop answers from any of its intermediate states: the greatest common divisor of the two remainders,
and a coefficient `t` of the operand `a` for it with `2 * |t| <= m`. Enough rounds are granted when `r0 * r1 < 2 ^ k`. -/
theorem euclidLoop_spec (a m : Int) :
    ∀ (k r0 r1 : Nat) (t0 t1 : Int), r1 < r0 → r0 * r1 < 2 ^ k → m ∣ t0 * a - r0 → m ∣ t1 * a - r1 →
      (r0 : Int) * |t1| + r1 * |t0| ≤ m → t0 * t1 ≤ 0 → 2 * |t0| ≤ m →
      (euclidLoop k r0 r1 t0 t1).1 = Nat.gcd r0 r1 ∧
        m ∣ (euclidLoop k r0 r1 t0 t1).2 * a - (Nat.gcd r0 r1 : Nat) ∧
        2 * |(euclidLoop k r0 r1 t0 t1).2| ≤ m := by
  intro k
  induction k with
  | zero =>
    intro r0 r1 t0 t1 hlt hk h0 _ _ _ hb
    have hr1 : r1 = 0 := by
      rcases Nat.eq_zero_or_pos r1 with h | h
      · exact h
      · have := Nat.mul_pos (lt_trans h hlt) h
        simp at hk
        omega
    subst hr1
    simpa [euclidLoop] using ⟨h0, hb⟩
  | succ k ih =>
    intro r0 r1 t0 t1 hlt hk h0 h1 hm hs hb
    by_cases hr1 : r1 = 0
    · subst hr1
      simpa [euclidLoop] using ⟨h0, hb⟩
    · have hpos : 0 < r1 := Nat.pos_of_ne_zero hr1
      have hmod : r0 - r0 / r1 * r1 = r0 % r1 := by
        have := Nat.div_add_mod r0 r1
        rw [Nat.mul_comm] at this
        omega
      have hdm : r0 = r0 / r1 * r1 + r0 % r1 := by
        have := Nat.div_add_mod r0 r1
        rw [Nat.mul_comm] at this
        omega
      have hqpos : 1 ≤ r0 / r1 := Nat.div_pos hlt.le hpos
      have hrem : r0 % r1 < r1 := Nat.mod_lt _ hpos
      rw [euclidLoop, if_neg hr1, hmod]
      have hdmZ : (r0 : Int) = (r0 / r1 : Nat) * r1 + (r0 % r1 : Nat) := by exact_mod_cast hdm
      have habs := abs_sub_mul_of_opposite (Int.natCast_nonneg (r0 / r1)) hs
      have hgcd : Nat.gcd r0 r1 = Nat.gcd r1 (r0 % r1) := by
        rw [Nat.gcd_comm r0 r1, Nat.gcd_rec r1 r0, Nat.gcd_comm]
      have hrec := ih r1 (r0 % r1) t1 (t0 - ((r0 / r1 : Nat) : Int) * t1) hrem ?_ h1 ?_ ?_ ?_ ?_
      · rw [hgcd]
        exact hrec
      · have h2 : 2 * (r1 * (r0 % r1)) ≤ r0 * r1 := by
          have hle : r1 + r0 % r1 ≤ r0 := by
            calc r1 + r0 % r1 ≤ r0 / r1 * r1 + r0 % r1 := by
                  have := Nat.mul_le_mul_right r1 hqpos
                  omega
              _ = r0 := hdm.symm
          nlinarith
        rw [pow_succ] at hk
        omega
      · have : (t0 - ((r0 / r1 : Nat) : Int) * t1) * a - ((r0 % r1 : Nat) : Int)
            = (t0 * a - r0) - ((r0 / r1 : Nat) : Int) * (t1 * a - r1) := by
          rw [hdmZ]; ring
        rw [this]
        exact dvd_sub h0 (Dvd.dvd.mul_left h1 _)
      · rw [habs]
        calc (r1 : Int) * (|t0| + ((r0 / r1 : Nat) : Int) * |t1|) + ((r0 % r1 : Nat) : Int) * |t1|
            = (((r0 / r1 : Nat) : Int) * r1 + (r0 % r1 : Nat)) * |t1| + r1 * |t0| := by ring
          _ = (r0 : Int) * |t1| + r1 * |t0| := by rw [← hdmZ]
          _ ≤ m := hm
      · have hq : (0 : Int) ≤ ((r0 / r1 : Nat) : Int) := Int.natCast_nonneg _
        nlinarith [mul_nonneg hq (mul_self_nonneg t1)]
      · have h2 : (2 : Int) ≤ r0 := by exact_mod_cast (by omega : 2 ≤ r0)
        have hr1' : (0 : Int) ≤ (r1 : Int) * |t0| := by positivity
        nlinarith [abs_nonneg t1]

/-- The loop as `modinv` starts it. -/
theorem euclidLoop_start {m : Word} (h : m ≠ 0#32) (a : Word) :
    (euclidLoop euclidRounds m.toNat (a.toNat % m.toNat) 0 1).1 = Nat.gcd a.toNat m.toNat ∧
      (m.toNat : Int) ∣ (euclidLoop euclidRounds m.toNat (a.toNat % m.toNat) 0 1).2 * a.toNat
        - (Nat.gcd a.toNat m.toNat : Nat) ∧
      2 * |(euclidLoop euclidRounds m.toNat (a.toNat % m.toNat) 0 1).2| ≤ (m.toNat : Int) := by
  have hpos := word_toNat_pos h
  have hlt := Nat.mod_lt a.toNat hpos
  have hg : Nat.gcd m.toNat (a.toNat % m.toNat) = Nat.gcd a.toNat m.toNat := by
    rw [Nat.gcd_comm a.toNat, Nat.gcd_rec m.toNat a.toNat, Nat.gcd_comm]
  have hk : m.toNat * (a.toNat % m.toNat) < 2 ^ euclidRounds := by
    have := Nat.mul_lt_mul'' m.isLt (lt_trans hlt m.isLt)
    simpa [euclidRounds] using this
  have hd : (m.toNat : Int) ∣ 1 * (a.toNat : Int) - ((a.toNat % m.toNat : Nat) : Int) := by
    rw [one_mul, Int.natCast_mod]
    exact Int.dvd_self_sub_emod
  have := euclidLoop_spec (a.toNat : Int) (m.toNat : Int) euclidRounds m.toNat (a.toNat % m.toNat) 0 1 hlt hk
    (by simp) hd (by simp) (by simp) (by simp)
  rwa [hg] at this

/-- `modinv` answers `none` exactly where no inverse exists (40_number_theory.md R84). -/
theorem modinv_eq_none_iff {m : Word} (h : m ≠ 0#32) (a : Word) :
    modinv a m = none ↔ ¬ Nat.Coprime a.toNat m.toNat := by
  have := (euclidLoop_start h a).1
  simp only [modinv, this, Nat.Coprime]
  split <;> simp_all

/-- `modinv` answers the unique inverse in `0 .. m - 1` (40_number_theory.md R84). -/
theorem modinv_spec {m a t : Word} (h : m ≠ 0#32) (ht : modinv a m = some t) :
    t.toNat < m.toNat ∧ a.toNat * t.toNat ≡ 1 [MOD m.toNat] := by
  obtain ⟨h1, h2, h3⟩ := euclidLoop_start h a
  have hpos := word_toNat_pos h
  have hm32 := m.isLt
  simp only [modinv, h1] at ht
  split at ht
  · exact absurd ht (by simp)
  · rename_i hg
    simp only [ne_eq, not_not] at hg
    rw [hg] at h2
    generalize (euclidLoop euclidRounds m.toNat (a.toNat % m.toNat) 0 1).2 = c at *
    set v : Int := if c < 0 then c + (m.toNat : Int) else c with hv
    have habs := abs_le.mp (show |c| ≤ (m.toNat : Int) / 2 by omega)
    have hv0 : 0 ≤ v := by rw [hv]; split <;> omega
    have hvm : v < m.toNat := by rw [hv]; split <;> omega
    have htv : (t.toNat : Int) = v := by
      rw [← Option.some.inj ht, BitVec.toNat_ofInt, Int.toNat_of_nonneg (Int.emod_nonneg _ (by norm_num))]
      exact Int.emod_eq_of_lt hv0 (lt_trans hvm (by exact_mod_cast hm32))
    refine ⟨by exact_mod_cast htv ▸ hvm, ?_⟩
    have hdv : (m.toNat : Int) ∣ v * a.toNat - 1 := by
      rw [hv]
      split
      · have : (c + (m.toNat : Int)) * a.toNat - 1 = (c * a.toNat - ((1 : Nat) : Int)) + m.toNat * a.toNat := by
          push_cast; ring
        rw [this]
        exact dvd_add h2 (dvd_mul_right _ _)
      · simpa using h2
    have : (m.toNat : Int) ∣ ((1 : Nat) : Int) - ((a.toNat * t.toNat : Nat) : Int) := by
      have h4 : ((1 : Nat) : Int) - ((a.toNat * t.toNat : Nat) : Int) = -(v * a.toNat - 1) := by
        push_cast
        rw [htv]
        ring
      rw [h4]
      exact (dvd_neg).mpr hdv
    exact (Nat.modEq_iff_dvd).mpr this

/-- An inverse exists: `modinv` answers one. -/
theorem modinv_of_coprime {m a : Word} (h : m ≠ 0#32) (hc : Nat.Coprime a.toNat m.toNat) :
    ∃ t, modinv a m = some t := by
  rcases hx : modinv a m with _ | t
  · exact absurd hc ((modinv_eq_none_iff h a).mp hx)
  · exact ⟨t, rfl⟩

end Sys2Proof.Machine
end

