-- ==== Sys2Proof/Laws/Codec.lean ====
section
/-!
SUPPORT. Laws/Codec.lean: what the encoder's and the decoder's loops compute (44_codec.md R135, R136, R138).
-/

namespace Sys2Proof.Machine

/-- After `k + 1` rounds the encoder holds the `k`-th iterate of the seed. -/
theorem encodeLoop_cur (f : Word → Word) (x0 : Word) (k : Nat) : (encodeLoop f x0 (k + 1)).cur = f^[k] x0 := by
  induction k with
  | zero => rfl
  | succ k ih =>
    rw [encodeLoop, encodeRound, ih, Function.iterate_succ_apply']
    simp

/-- After `k` rounds bit `j` of the sequence is the predicate of iterate `k - 1 - j`, and the bits above are 0. -/
theorem encodeLoop_seq (f : Word → Word) (x0 : Word) (k j : Nat) (hk : k ≤ 32) (hj : j < 32) :
    (encodeLoop f x0 k).seq.getLsbD j = (decide (j < k) && parity32 (f^[k - 1 - j] x0)) := by
  induction k generalizing j with
  | zero => simp [encodeLoop]
  | succ k ih =>
    have hcur : (encodeLoop f x0 (k + 1)).seq
        = ((encodeLoop f x0 k).seq <<< 1)
          ||| (BitVec.ofBool (parity32 (encodeLoop f x0 (k + 1)).cur)).setWidth 32 := rfl
    rw [hcur, encodeLoop_cur, BitVec.getLsbD_or, BitVec.getLsbD_shiftLeft, BitVec.getLsbD_setWidth]
    rcases Nat.eq_zero_or_pos j with rfl | hpos
    · simp
    · have h1 : ¬ j < 1 := by omega
      have h2 : (BitVec.ofBool (parity32 (f^[k] x0))).getLsbD j = false := BitVec.getLsbD_of_ge _ _ (by omega)
      have h3 : k - 1 - (j - 1) = k + 1 - 1 - j := by omega
      have h4 : (j - 1 < k) ↔ (j < k + 1) := by omega
      rw [h2, ih (j - 1) (by omega) (by omega), h3]
      simp [h1, hj, h4]

/-- The finished codeword's p field: bit `31 - i` is the predicate of iterate `i` (30_encoding.md R66). -/
theorem encodeLoop_pField (f : Word → Word) (x0 : Word) (i : Nat) (hi : i < 32) :
    (encodeLoop f x0 Config.K).seq.getLsbD (31 - i) = parity32 (f^[i] x0) := by
  have h := encodeLoop_seq f x0 32 (31 - i) (le_refl _) (by omega)
  have h1 : 32 - 1 - (31 - i) = i := by omega
  have h2 : 31 - i < 32 := by omega
  rw [Config.K, h, h1, decide_eq_true h2, Bool.true_and]

/-- The decoder passes `m` steps: the checks from step `j` on agree and the inversions lead along `c`. -/
def DecodeChain (g : Word → Option Word) (pField : Word) (j : Nat) (c : Nat → Word) (m : Nat) : Prop :=
  ∀ i < m, parity32 (c i) = pField.getLsbD (j + i) ∧ g (c i) = some (c (i + 1))

/-- The decoder's loop runs along a chain. -/
theorem decodeLoop_chain {g : Word → Option Word} {pField : Word} (k m j : Nat) (c : Nat → Word)
    (h : DecodeChain g pField j c m) :
    decodeLoop g pField (m + k) j (c 0) = decodeLoop g pField k (j + m) (c m) := by
  induction m generalizing j c with
  | zero => simp
  | succ m ih =>
    obtain ⟨hpar, hinv⟩ := h 0 (by omega)
    have htail : DecodeChain g pField (j + 1) (fun i => c (i + 1)) m := by
      intro i hi
      have := h (i + 1) (by omega)
      rwa [show j + (i + 1) = j + 1 + i by omega] at this
    have hstep := ih (j + 1) (fun i => c (i + 1)) htail
    rw [show m + 1 + k = (m + k) + 1 by omega, decodeLoop, if_pos (by simpa using hpar), hinv]
    simpa [show j + (m + 1) = j + 1 + m by omega] using hstep

/-- A failed check ends the loop there; no inversion is attempted (44_codec.md R139). -/
theorem decodeLoop_rejects {g : Word → Option Word} {pField : Word} {k j : Nat} {x : Word}
    (h : parity32 x ≠ pField.getLsbD j) : decodeLoop g pField (k + 1) j x = .rejected j x := by
  rw [decodeLoop, if_neg h]

/-- A passed check whose value has no inverse ends the loop there. -/
theorem decodeLoop_fails {g : Word → Option Word} {pField : Word} {k j : Nat} {x : Word}
    (h : parity32 x = pField.getLsbD j) (hg : g x = none) :
    decodeLoop g pField (k + 1) j x = .inversionFailed j x := by
  rw [decodeLoop, if_pos h, hg]

/-- Where a rejection or a failed inversion can end the loop: before its last step. -/
theorem decodeLoop_bound (g : Word → Option Word) (pField : Word) (k j : Nat) (x : Word) :
    match decodeLoop g pField k j x with
    | .member _ => True
    | .rejected i _ => i < j + k
    | .inversionFailed i _ => i < j + k := by
  induction k generalizing j x with
  | zero => simp [decodeLoop]
  | succ k ih =>
    rw [decodeLoop]
    by_cases h : parity32 x = pField.getLsbD j
    · rw [if_pos h]
      rcases g x with _ | y
      · simp
      · have := ih (j + 1) y
        rcases hd : decodeLoop g pField k (j + 1) y with c | ⟨i, c⟩ | ⟨i, c⟩
        · simp [hd]
        · simp only [hd] at this ⊢
          omega
        · simp only [hd] at this ⊢
          omega
    · rw [if_neg h]
      simp

end Sys2Proof.Machine
end

