-- ==== Sys2Proof/Laws/State.lean ====
section
/-!
SUPPORT. Laws/State.lean: for each shared update of the state, the value of each field after it, so that no proof unfolds a
record update. All hold by rfl; all are simp lemmas.
-/

namespace Sys2Proof.Machine

/-! ## raise -/

@[simp] theorem raise_a (cmd : Option Instr) (x : ErrorKind) (s : State) : (raise cmd x s).a = s.a := rfl
@[simp] theorem raise_b (cmd : Option Instr) (x : ErrorKind) (s : State) : (raise cmd x s).b = s.b := rfl
@[simp] theorem raise_m (cmd : Option Instr) (x : ErrorKind) (s : State) : (raise cmd x s).m = s.m := rfl
@[simp] theorem raise_r (cmd : Option Instr) (x : ErrorKind) (s : State) : (raise cmd x s).r = s.r := rfl
@[simp] theorem raise_done (cmd : Option Instr) (x : ErrorKind) (s : State) : (raise cmd x s).done = true := rfl
@[simp] theorem raise_flag (cmd : Option Instr) (x : ErrorKind) (s : State) : (raise cmd x s).flag = if clearsFlagOnError cmd then false else s.flag := rfl
@[simp] theorem raise_keyv (cmd : Option Instr) (x : ErrorKind) (s : State) : (raise cmd x s).keyv = s.keyv := rfl
@[simp] theorem raise_var (cmd : Option Instr) (x : ErrorKind) (s : State) : (raise cmd x s).var = s.var := rfl
@[simp] theorem raise_cwvx (cmd : Option Instr) (x : ErrorKind) (s : State) : (raise cmd x s).cwvx = s.cwvx := rfl
@[simp] theorem raise_cwvp (cmd : Option Instr) (x : ErrorKind) (s : State) : (raise cmd x s).cwvp = s.cwvp := rfl
@[simp] theorem raise_errcode (cmd : Option Instr) (x : ErrorKind) (s : State) : (raise cmd x s).errcode = x.errcode := rfl
@[simp] theorem raise_errlog (cmd : Option Instr) (x : ErrorKind) (s : State) : (raise cmd x s).errlog = s.errlog ||| x.logBit := rfl
@[simp] theorem raise_p (cmd : Option Instr) (x : ErrorKind) (s : State) : (raise cmd x s).p = s.p := rfl
@[simp] theorem raise_q (cmd : Option Instr) (x : ErrorKind) (s : State) : (raise cmd x s).q = s.q := rfl
@[simp] theorem raise_e (cmd : Option Instr) (x : ErrorKind) (s : State) : (raise cmd x s).e = s.e := rfl
@[simp] theorem raise_n (cmd : Option Instr) (x : ErrorKind) (s : State) : (raise cmd x s).n = s.n := rfl
@[simp] theorem raise_phi (cmd : Option Instr) (x : ErrorKind) (s : State) : (raise cmd x s).phi = s.phi := rfl
@[simp] theorem raise_crtC (cmd : Option Instr) (x : ErrorKind) (s : State) : (raise cmd x s).crtC = s.crtC := rfl
@[simp] theorem raise_crtD (cmd : Option Instr) (x : ErrorKind) (s : State) : (raise cmd x s).crtD = s.crtD := rfl
@[simp] theorem raise_dexp (cmd : Option Instr) (x : ErrorKind) (s : State) : (raise cmd x s).dexp = s.dexp := rfl
@[simp] theorem raise_x0 (cmd : Option Instr) (x : ErrorKind) (s : State) : (raise cmd x s).x0 = s.x0 := rfl
@[simp] theorem raise_cwX (cmd : Option Instr) (x : ErrorKind) (s : State) : (raise cmd x s).cwX = s.cwX := rfl
@[simp] theorem raise_cwP (cmd : Option Instr) (x : ErrorKind) (s : State) : (raise cmd x s).cwP = s.cwP := rfl
@[simp] theorem raise_cur (cmd : Option Instr) (x : ErrorKind) (s : State) : (raise cmd x s).cur = s.cur := rfl
@[simp] theorem raise_stepReg (cmd : Option Instr) (x : ErrorKind) (s : State) : (raise cmd x s).stepReg = s.stepReg := rfl
@[simp] theorem raise_pending (cmd : Option Instr) (x : ErrorKind) (s : State) : (raise cmd x s).pending = s.pending := rfl
@[simp] theorem raise_returned (cmd : Option Instr) (x : ErrorKind) (s : State) : (raise cmd x s).returned = s.returned := rfl

/-! ## acknowledge -/

@[simp] theorem acknowledge_a (mask : Word) (s : State) : (acknowledge mask s).a = s.a := rfl
@[simp] theorem acknowledge_b (mask : Word) (s : State) : (acknowledge mask s).b = s.b := rfl
@[simp] theorem acknowledge_m (mask : Word) (s : State) : (acknowledge mask s).m = s.m := rfl
@[simp] theorem acknowledge_r (mask : Word) (s : State) : (acknowledge mask s).r = s.r := rfl
@[simp] theorem acknowledge_done (mask : Word) (s : State) : (acknowledge mask s).done = s.done := rfl
@[simp] theorem acknowledge_flag (mask : Word) (s : State) : (acknowledge mask s).flag = s.flag := rfl
@[simp] theorem acknowledge_keyv (mask : Word) (s : State) : (acknowledge mask s).keyv = s.keyv := rfl
@[simp] theorem acknowledge_var (mask : Word) (s : State) : (acknowledge mask s).var = s.var := rfl
@[simp] theorem acknowledge_cwvx (mask : Word) (s : State) : (acknowledge mask s).cwvx = s.cwvx := rfl
@[simp] theorem acknowledge_cwvp (mask : Word) (s : State) : (acknowledge mask s).cwvp = s.cwvp := rfl
@[simp] theorem acknowledge_errcode (mask : Word) (s : State) : (acknowledge mask s).errcode = s.errcode := rfl
@[simp] theorem acknowledge_errlog (mask : Word) (s : State) : (acknowledge mask s).errlog = s.errlog &&& ~~~mask := rfl
@[simp] theorem acknowledge_p (mask : Word) (s : State) : (acknowledge mask s).p = s.p := rfl
@[simp] theorem acknowledge_q (mask : Word) (s : State) : (acknowledge mask s).q = s.q := rfl
@[simp] theorem acknowledge_e (mask : Word) (s : State) : (acknowledge mask s).e = s.e := rfl
@[simp] theorem acknowledge_n (mask : Word) (s : State) : (acknowledge mask s).n = s.n := rfl
@[simp] theorem acknowledge_phi (mask : Word) (s : State) : (acknowledge mask s).phi = s.phi := rfl
@[simp] theorem acknowledge_crtC (mask : Word) (s : State) : (acknowledge mask s).crtC = s.crtC := rfl
@[simp] theorem acknowledge_crtD (mask : Word) (s : State) : (acknowledge mask s).crtD = s.crtD := rfl
@[simp] theorem acknowledge_dexp (mask : Word) (s : State) : (acknowledge mask s).dexp = s.dexp := rfl
@[simp] theorem acknowledge_x0 (mask : Word) (s : State) : (acknowledge mask s).x0 = s.x0 := rfl
@[simp] theorem acknowledge_cwX (mask : Word) (s : State) : (acknowledge mask s).cwX = s.cwX := rfl
@[simp] theorem acknowledge_cwP (mask : Word) (s : State) : (acknowledge mask s).cwP = s.cwP := rfl
@[simp] theorem acknowledge_cur (mask : Word) (s : State) : (acknowledge mask s).cur = s.cur := rfl
@[simp] theorem acknowledge_stepReg (mask : Word) (s : State) : (acknowledge mask s).stepReg = s.stepReg := rfl
@[simp] theorem acknowledge_pending (mask : Word) (s : State) : (acknowledge mask s).pending = s.pending := rfl
@[simp] theorem acknowledge_returned (mask : Word) (s : State) : (acknowledge mask s).returned = s.returned := rfl

/-! ## complete -/

@[simp] theorem complete_a (s : State) : (complete s).a = s.a := rfl
@[simp] theorem complete_b (s : State) : (complete s).b = s.b := rfl
@[simp] theorem complete_m (s : State) : (complete s).m = s.m := rfl
@[simp] theorem complete_r (s : State) : (complete s).r = s.r := rfl
@[simp] theorem complete_done (s : State) : (complete s).done = true := rfl
@[simp] theorem complete_flag (s : State) : (complete s).flag = s.flag := rfl
@[simp] theorem complete_keyv (s : State) : (complete s).keyv = s.keyv := rfl
@[simp] theorem complete_var (s : State) : (complete s).var = s.var := rfl
@[simp] theorem complete_cwvx (s : State) : (complete s).cwvx = s.cwvx := rfl
@[simp] theorem complete_cwvp (s : State) : (complete s).cwvp = s.cwvp := rfl
@[simp] theorem complete_errcode (s : State) : (complete s).errcode = 0#8 := rfl
@[simp] theorem complete_errlog (s : State) : (complete s).errlog = s.errlog := rfl
@[simp] theorem complete_p (s : State) : (complete s).p = s.p := rfl
@[simp] theorem complete_q (s : State) : (complete s).q = s.q := rfl
@[simp] theorem complete_e (s : State) : (complete s).e = s.e := rfl
@[simp] theorem complete_n (s : State) : (complete s).n = s.n := rfl
@[simp] theorem complete_phi (s : State) : (complete s).phi = s.phi := rfl
@[simp] theorem complete_crtC (s : State) : (complete s).crtC = s.crtC := rfl
@[simp] theorem complete_crtD (s : State) : (complete s).crtD = s.crtD := rfl
@[simp] theorem complete_dexp (s : State) : (complete s).dexp = s.dexp := rfl
@[simp] theorem complete_x0 (s : State) : (complete s).x0 = s.x0 := rfl
@[simp] theorem complete_cwX (s : State) : (complete s).cwX = s.cwX := rfl
@[simp] theorem complete_cwP (s : State) : (complete s).cwP = s.cwP := rfl
@[simp] theorem complete_cur (s : State) : (complete s).cur = s.cur := rfl
@[simp] theorem complete_stepReg (s : State) : (complete s).stepReg = s.stepReg := rfl
@[simp] theorem complete_pending (s : State) : (complete s).pending = s.pending := rfl
@[simp] theorem complete_returned (s : State) : (complete s).returned = s.returned := rfl

/-! ## logBusError -/

@[simp] theorem logBusError_a (s : State) : (logBusError s).a = s.a := rfl
@[simp] theorem logBusError_b (s : State) : (logBusError s).b = s.b := rfl
@[simp] theorem logBusError_m (s : State) : (logBusError s).m = s.m := rfl
@[simp] theorem logBusError_r (s : State) : (logBusError s).r = s.r := rfl
@[simp] theorem logBusError_done (s : State) : (logBusError s).done = s.done := rfl
@[simp] theorem logBusError_flag (s : State) : (logBusError s).flag = s.flag := rfl
@[simp] theorem logBusError_keyv (s : State) : (logBusError s).keyv = s.keyv := rfl
@[simp] theorem logBusError_var (s : State) : (logBusError s).var = s.var := rfl
@[simp] theorem logBusError_cwvx (s : State) : (logBusError s).cwvx = s.cwvx := rfl
@[simp] theorem logBusError_cwvp (s : State) : (logBusError s).cwvp = s.cwvp := rfl
@[simp] theorem logBusError_errcode (s : State) : (logBusError s).errcode = s.errcode := rfl
@[simp] theorem logBusError_errlog (s : State) : (logBusError s).errlog = s.errlog ||| ErrorKind.busError.logBit := rfl
@[simp] theorem logBusError_p (s : State) : (logBusError s).p = s.p := rfl
@[simp] theorem logBusError_q (s : State) : (logBusError s).q = s.q := rfl
@[simp] theorem logBusError_e (s : State) : (logBusError s).e = s.e := rfl
@[simp] theorem logBusError_n (s : State) : (logBusError s).n = s.n := rfl
@[simp] theorem logBusError_phi (s : State) : (logBusError s).phi = s.phi := rfl
@[simp] theorem logBusError_crtC (s : State) : (logBusError s).crtC = s.crtC := rfl
@[simp] theorem logBusError_crtD (s : State) : (logBusError s).crtD = s.crtD := rfl
@[simp] theorem logBusError_dexp (s : State) : (logBusError s).dexp = s.dexp := rfl
@[simp] theorem logBusError_x0 (s : State) : (logBusError s).x0 = s.x0 := rfl
@[simp] theorem logBusError_cwX (s : State) : (logBusError s).cwX = s.cwX := rfl
@[simp] theorem logBusError_cwP (s : State) : (logBusError s).cwP = s.cwP := rfl
@[simp] theorem logBusError_cur (s : State) : (logBusError s).cur = s.cur := rfl
@[simp] theorem logBusError_stepReg (s : State) : (logBusError s).stepReg = s.stepReg := rfl
@[simp] theorem logBusError_pending (s : State) : (logBusError s).pending = s.pending := rfl
@[simp] theorem logBusError_returned (s : State) : (logBusError s).returned = s.returned := rfl

/-! ## invalidateKey -/

@[simp] theorem invalidateKey_a (s : State) : (invalidateKey s).a = s.a := rfl
@[simp] theorem invalidateKey_b (s : State) : (invalidateKey s).b = s.b := rfl
@[simp] theorem invalidateKey_m (s : State) : (invalidateKey s).m = s.m := rfl
@[simp] theorem invalidateKey_r (s : State) : (invalidateKey s).r = s.r := rfl
@[simp] theorem invalidateKey_done (s : State) : (invalidateKey s).done = s.done := rfl
@[simp] theorem invalidateKey_flag (s : State) : (invalidateKey s).flag = s.flag := rfl
@[simp] theorem invalidateKey_keyv (s : State) : (invalidateKey s).keyv = false := rfl
@[simp] theorem invalidateKey_var (s : State) : (invalidateKey s).var = s.var := rfl
@[simp] theorem invalidateKey_cwvx (s : State) : (invalidateKey s).cwvx = s.cwvx := rfl
@[simp] theorem invalidateKey_cwvp (s : State) : (invalidateKey s).cwvp = s.cwvp := rfl
@[simp] theorem invalidateKey_errcode (s : State) : (invalidateKey s).errcode = s.errcode := rfl
@[simp] theorem invalidateKey_errlog (s : State) : (invalidateKey s).errlog = s.errlog := rfl
@[simp] theorem invalidateKey_p (s : State) : (invalidateKey s).p = s.p := rfl
@[simp] theorem invalidateKey_q (s : State) : (invalidateKey s).q = s.q := rfl
@[simp] theorem invalidateKey_e (s : State) : (invalidateKey s).e = s.e := rfl
@[simp] theorem invalidateKey_n (s : State) : (invalidateKey s).n = 0#32 := rfl
@[simp] theorem invalidateKey_phi (s : State) : (invalidateKey s).phi = 0#32 := rfl
@[simp] theorem invalidateKey_crtC (s : State) : (invalidateKey s).crtC = 0#32 := rfl
@[simp] theorem invalidateKey_crtD (s : State) : (invalidateKey s).crtD = 0#32 := rfl
@[simp] theorem invalidateKey_dexp (s : State) : (invalidateKey s).dexp = 0#32 := rfl
@[simp] theorem invalidateKey_x0 (s : State) : (invalidateKey s).x0 = s.x0 := rfl
@[simp] theorem invalidateKey_cwX (s : State) : (invalidateKey s).cwX = s.cwX := rfl
@[simp] theorem invalidateKey_cwP (s : State) : (invalidateKey s).cwP = s.cwP := rfl
@[simp] theorem invalidateKey_cur (s : State) : (invalidateKey s).cur = s.cur := rfl
@[simp] theorem invalidateKey_stepReg (s : State) : (invalidateKey s).stepReg = s.stepReg := rfl
@[simp] theorem invalidateKey_pending (s : State) : (invalidateKey s).pending = s.pending := rfl
@[simp] theorem invalidateKey_returned (s : State) : (invalidateKey s).returned = s.returned := rfl

/-! ## installKey -/

@[simp] theorem installKey_a (v : Variant) (k : DerivedKey) (s : State) : (installKey v k s).a = s.a := rfl
@[simp] theorem installKey_b (v : Variant) (k : DerivedKey) (s : State) : (installKey v k s).b = s.b := rfl
@[simp] theorem installKey_m (v : Variant) (k : DerivedKey) (s : State) : (installKey v k s).m = s.m := rfl
@[simp] theorem installKey_r (v : Variant) (k : DerivedKey) (s : State) : (installKey v k s).r = s.r := rfl
@[simp] theorem installKey_done (v : Variant) (k : DerivedKey) (s : State) : (installKey v k s).done = s.done := rfl
@[simp] theorem installKey_flag (v : Variant) (k : DerivedKey) (s : State) : (installKey v k s).flag = s.flag := rfl
@[simp] theorem installKey_keyv (v : Variant) (k : DerivedKey) (s : State) : (installKey v k s).keyv = true := rfl
@[simp] theorem installKey_var (v : Variant) (k : DerivedKey) (s : State) : (installKey v k s).var = v := rfl
@[simp] theorem installKey_cwvx (v : Variant) (k : DerivedKey) (s : State) : (installKey v k s).cwvx = s.cwvx := rfl
@[simp] theorem installKey_cwvp (v : Variant) (k : DerivedKey) (s : State) : (installKey v k s).cwvp = s.cwvp := rfl
@[simp] theorem installKey_errcode (v : Variant) (k : DerivedKey) (s : State) : (installKey v k s).errcode = s.errcode := rfl
@[simp] theorem installKey_errlog (v : Variant) (k : DerivedKey) (s : State) : (installKey v k s).errlog = s.errlog := rfl
@[simp] theorem installKey_p (v : Variant) (k : DerivedKey) (s : State) : (installKey v k s).p = s.p := rfl
@[simp] theorem installKey_q (v : Variant) (k : DerivedKey) (s : State) : (installKey v k s).q = s.q := rfl
@[simp] theorem installKey_e (v : Variant) (k : DerivedKey) (s : State) : (installKey v k s).e = s.e := rfl
@[simp] theorem installKey_n (v : Variant) (k : DerivedKey) (s : State) : (installKey v k s).n = k.n := rfl
@[simp] theorem installKey_phi (v : Variant) (k : DerivedKey) (s : State) : (installKey v k s).phi = k.phi := rfl
@[simp] theorem installKey_crtC (v : Variant) (k : DerivedKey) (s : State) : (installKey v k s).crtC = k.crtC := rfl
@[simp] theorem installKey_crtD (v : Variant) (k : DerivedKey) (s : State) : (installKey v k s).crtD = k.crtD := rfl
@[simp] theorem installKey_dexp (v : Variant) (k : DerivedKey) (s : State) : (installKey v k s).dexp = k.dexp := rfl
@[simp] theorem installKey_x0 (v : Variant) (k : DerivedKey) (s : State) : (installKey v k s).x0 = s.x0 := rfl
@[simp] theorem installKey_cwX (v : Variant) (k : DerivedKey) (s : State) : (installKey v k s).cwX = s.cwX := rfl
@[simp] theorem installKey_cwP (v : Variant) (k : DerivedKey) (s : State) : (installKey v k s).cwP = s.cwP := rfl
@[simp] theorem installKey_cur (v : Variant) (k : DerivedKey) (s : State) : (installKey v k s).cur = s.cur := rfl
@[simp] theorem installKey_stepReg (v : Variant) (k : DerivedKey) (s : State) : (installKey v k s).stepReg = s.stepReg := rfl
@[simp] theorem installKey_pending (v : Variant) (k : DerivedKey) (s : State) : (installKey v k s).pending = s.pending := rfl
@[simp] theorem installKey_returned (v : Variant) (k : DerivedKey) (s : State) : (installKey v k s).returned = s.returned := rfl

/-! ## setPending -/

@[simp] theorem setPending_a (evs : List PortEvent) (s : State) : (setPending evs s).a = s.a := rfl
@[simp] theorem setPending_b (evs : List PortEvent) (s : State) : (setPending evs s).b = s.b := rfl
@[simp] theorem setPending_m (evs : List PortEvent) (s : State) : (setPending evs s).m = s.m := rfl
@[simp] theorem setPending_r (evs : List PortEvent) (s : State) : (setPending evs s).r = s.r := rfl
@[simp] theorem setPending_done (evs : List PortEvent) (s : State) : (setPending evs s).done = s.done := rfl
@[simp] theorem setPending_flag (evs : List PortEvent) (s : State) : (setPending evs s).flag = s.flag := rfl
@[simp] theorem setPending_keyv (evs : List PortEvent) (s : State) : (setPending evs s).keyv = s.keyv := rfl
@[simp] theorem setPending_var (evs : List PortEvent) (s : State) : (setPending evs s).var = s.var := rfl
@[simp] theorem setPending_cwvx (evs : List PortEvent) (s : State) : (setPending evs s).cwvx = s.cwvx := rfl
@[simp] theorem setPending_cwvp (evs : List PortEvent) (s : State) : (setPending evs s).cwvp = s.cwvp := rfl
@[simp] theorem setPending_errcode (evs : List PortEvent) (s : State) : (setPending evs s).errcode = s.errcode := rfl
@[simp] theorem setPending_errlog (evs : List PortEvent) (s : State) : (setPending evs s).errlog = s.errlog := rfl
@[simp] theorem setPending_p (evs : List PortEvent) (s : State) : (setPending evs s).p = s.p := rfl
@[simp] theorem setPending_q (evs : List PortEvent) (s : State) : (setPending evs s).q = s.q := rfl
@[simp] theorem setPending_e (evs : List PortEvent) (s : State) : (setPending evs s).e = s.e := rfl
@[simp] theorem setPending_n (evs : List PortEvent) (s : State) : (setPending evs s).n = s.n := rfl
@[simp] theorem setPending_phi (evs : List PortEvent) (s : State) : (setPending evs s).phi = s.phi := rfl
@[simp] theorem setPending_crtC (evs : List PortEvent) (s : State) : (setPending evs s).crtC = s.crtC := rfl
@[simp] theorem setPending_crtD (evs : List PortEvent) (s : State) : (setPending evs s).crtD = s.crtD := rfl
@[simp] theorem setPending_dexp (evs : List PortEvent) (s : State) : (setPending evs s).dexp = s.dexp := rfl
@[simp] theorem setPending_x0 (evs : List PortEvent) (s : State) : (setPending evs s).x0 = s.x0 := rfl
@[simp] theorem setPending_cwX (evs : List PortEvent) (s : State) : (setPending evs s).cwX = s.cwX := rfl
@[simp] theorem setPending_cwP (evs : List PortEvent) (s : State) : (setPending evs s).cwP = s.cwP := rfl
@[simp] theorem setPending_cur (evs : List PortEvent) (s : State) : (setPending evs s).cur = s.cur := rfl
@[simp] theorem setPending_stepReg (evs : List PortEvent) (s : State) : (setPending evs s).stepReg = s.stepReg := rfl
@[simp] theorem setPending_pending (evs : List PortEvent) (s : State) : (setPending evs s).pending = evs := rfl
@[simp] theorem setPending_returned (evs : List PortEvent) (s : State) : (setPending evs s).returned = s.returned := rfl

/-! ## pushReturned -/

@[simp] theorem pushReturned_a (v : Word) (s : State) : (pushReturned v s).a = s.a := rfl
@[simp] theorem pushReturned_b (v : Word) (s : State) : (pushReturned v s).b = s.b := rfl
@[simp] theorem pushReturned_m (v : Word) (s : State) : (pushReturned v s).m = s.m := rfl
@[simp] theorem pushReturned_r (v : Word) (s : State) : (pushReturned v s).r = s.r := rfl
@[simp] theorem pushReturned_done (v : Word) (s : State) : (pushReturned v s).done = s.done := rfl
@[simp] theorem pushReturned_flag (v : Word) (s : State) : (pushReturned v s).flag = s.flag := rfl
@[simp] theorem pushReturned_keyv (v : Word) (s : State) : (pushReturned v s).keyv = s.keyv := rfl
@[simp] theorem pushReturned_var (v : Word) (s : State) : (pushReturned v s).var = s.var := rfl
@[simp] theorem pushReturned_cwvx (v : Word) (s : State) : (pushReturned v s).cwvx = s.cwvx := rfl
@[simp] theorem pushReturned_cwvp (v : Word) (s : State) : (pushReturned v s).cwvp = s.cwvp := rfl
@[simp] theorem pushReturned_errcode (v : Word) (s : State) : (pushReturned v s).errcode = s.errcode := rfl
@[simp] theorem pushReturned_errlog (v : Word) (s : State) : (pushReturned v s).errlog = s.errlog := rfl
@[simp] theorem pushReturned_p (v : Word) (s : State) : (pushReturned v s).p = s.p := rfl
@[simp] theorem pushReturned_q (v : Word) (s : State) : (pushReturned v s).q = s.q := rfl
@[simp] theorem pushReturned_e (v : Word) (s : State) : (pushReturned v s).e = s.e := rfl
@[simp] theorem pushReturned_n (v : Word) (s : State) : (pushReturned v s).n = s.n := rfl
@[simp] theorem pushReturned_phi (v : Word) (s : State) : (pushReturned v s).phi = s.phi := rfl
@[simp] theorem pushReturned_crtC (v : Word) (s : State) : (pushReturned v s).crtC = s.crtC := rfl
@[simp] theorem pushReturned_crtD (v : Word) (s : State) : (pushReturned v s).crtD = s.crtD := rfl
@[simp] theorem pushReturned_dexp (v : Word) (s : State) : (pushReturned v s).dexp = s.dexp := rfl
@[simp] theorem pushReturned_x0 (v : Word) (s : State) : (pushReturned v s).x0 = s.x0 := rfl
@[simp] theorem pushReturned_cwX (v : Word) (s : State) : (pushReturned v s).cwX = s.cwX := rfl
@[simp] theorem pushReturned_cwP (v : Word) (s : State) : (pushReturned v s).cwP = s.cwP := rfl
@[simp] theorem pushReturned_cur (v : Word) (s : State) : (pushReturned v s).cur = s.cur := rfl
@[simp] theorem pushReturned_stepReg (v : Word) (s : State) : (pushReturned v s).stepReg = s.stepReg := rfl
@[simp] theorem pushReturned_pending (v : Word) (s : State) : (pushReturned v s).pending = s.pending := rfl
@[simp] theorem pushReturned_returned (v : Word) (s : State) : (pushReturned v s).returned = s.returned ++ [v] := rfl

/-! ## resetAll -/

@[simp] theorem resetAll_a (s : State) : (resetAll s).a = State.reset.a := rfl
@[simp] theorem resetAll_b (s : State) : (resetAll s).b = State.reset.b := rfl
@[simp] theorem resetAll_m (s : State) : (resetAll s).m = State.reset.m := rfl
@[simp] theorem resetAll_r (s : State) : (resetAll s).r = State.reset.r := rfl
@[simp] theorem resetAll_done (s : State) : (resetAll s).done = State.reset.done := rfl
@[simp] theorem resetAll_flag (s : State) : (resetAll s).flag = State.reset.flag := rfl
@[simp] theorem resetAll_keyv (s : State) : (resetAll s).keyv = State.reset.keyv := rfl
@[simp] theorem resetAll_var (s : State) : (resetAll s).var = State.reset.var := rfl
@[simp] theorem resetAll_cwvx (s : State) : (resetAll s).cwvx = State.reset.cwvx := rfl
@[simp] theorem resetAll_cwvp (s : State) : (resetAll s).cwvp = State.reset.cwvp := rfl
@[simp] theorem resetAll_errcode (s : State) : (resetAll s).errcode = State.reset.errcode := rfl
@[simp] theorem resetAll_errlog (s : State) : (resetAll s).errlog = State.reset.errlog := rfl
@[simp] theorem resetAll_p (s : State) : (resetAll s).p = State.reset.p := rfl
@[simp] theorem resetAll_q (s : State) : (resetAll s).q = State.reset.q := rfl
@[simp] theorem resetAll_e (s : State) : (resetAll s).e = State.reset.e := rfl
@[simp] theorem resetAll_n (s : State) : (resetAll s).n = State.reset.n := rfl
@[simp] theorem resetAll_phi (s : State) : (resetAll s).phi = State.reset.phi := rfl
@[simp] theorem resetAll_crtC (s : State) : (resetAll s).crtC = State.reset.crtC := rfl
@[simp] theorem resetAll_crtD (s : State) : (resetAll s).crtD = State.reset.crtD := rfl
@[simp] theorem resetAll_dexp (s : State) : (resetAll s).dexp = State.reset.dexp := rfl
@[simp] theorem resetAll_x0 (s : State) : (resetAll s).x0 = State.reset.x0 := rfl
@[simp] theorem resetAll_cwX (s : State) : (resetAll s).cwX = State.reset.cwX := rfl
@[simp] theorem resetAll_cwP (s : State) : (resetAll s).cwP = State.reset.cwP := rfl
@[simp] theorem resetAll_cur (s : State) : (resetAll s).cur = State.reset.cur := rfl
@[simp] theorem resetAll_stepReg (s : State) : (resetAll s).stepReg = State.reset.stepReg := rfl
@[simp] theorem resetAll_pending (s : State) : (resetAll s).pending = s.pending := rfl
@[simp] theorem resetAll_returned (s : State) : (resetAll s).returned = s.returned := rfl

end Sys2Proof.Machine
end

