-- ==== Sys2Proof/Laws/Commands.lean ====
section
/-!
SUPPORT. Laws/Commands.lean: for each command, everything it can do (one inversion lemma per meaning), so that invariants and
frames are derived from these and no proof unfolds a meaning.
-/

namespace Sys2Proof.Machine

theorem withKey_of_keyv {c : Instr} {s : State} {body : Result} (h : s.keyv = true) : withKey c s body = body := by
  simp [withKey, h]

theorem withKey_of_no_key {c : Instr} {s : State} {body : Result} (h : s.keyv = false) :
    withKey c s body = .next (raise (some c) .noKey s) := by
  simp [withKey, h]

theorem withKey_cases {c : Instr} {s t : State} {body : Result} (h : withKey c s body = .next t) :
    (s.keyv = false ∧ t = raise (some c) .noKey s) ∨ (s.keyv = true ∧ body = .next t) := by
  rcases hk : s.keyv with _ | _
  · rw [withKey_of_no_key hk] at h
    exact .inl ⟨rfl, by injection h with h; exact h.symm⟩
  · rw [withKey_of_keyv hk] at h
    exact .inr ⟨rfl, h⟩

theorem execNop_cases {s t : State} (h : exec .nop s = .next t) : t = complete s := by
  injection h with h; exact h.symm

theorem execSreset_cases {s t : State} (h : exec .sreset s = .next t) : t = resetAll s := by
  injection h with h; exact h.symm

theorem execPred_cases {s t : State} (h : exec .pred s = .next t) :
    t = complete { s with flag := parity32 s.a } := by
  injection h with h; exact h.symm

theorem execModpow_cases {s t : State} (h : exec .modpow s = .next t) :
    (s.m = 0#32 ∧ t = raise (some .modpow) .zeroModulus s) ∨
      (s.m ≠ 0#32 ∧ t = complete { s with r := modpow s.a s.b s.m }) := by
  simp only [exec, execModpow] at h
  split at h <;> injection h with h <;> simp_all

theorem execModinv_cases {s t : State} (h : exec .modinv s = .next t) :
    (s.m = 0#32 ∧ t = raise (some .modinv) .zeroModulus s) ∨
      (s.m ≠ 0#32 ∧ modinv s.a s.m = none ∧ t = raise (some .modinv) .notInvertible s) ∨
      (s.m ≠ 0#32 ∧ ∃ u, modinv s.a s.m = some u ∧ t = complete { s with r := u }) := by
  simp only [exec, execModinv] at h
  split at h
  · injection h with h; exact .inl ⟨‹_›, h.symm⟩
  · split at h <;> injection h with h
    · exact .inr (.inl ⟨‹_›, ‹_›, h.symm⟩)
    · exact .inr (.inr ⟨‹_›, _, ‹_›, h.symm⟩)

theorem keyload_cases {c : Instr} {v : Variant} {s t : State} (h : keyload c v s = .next t) :
    (deriveKey v s.p s.q s.e = none ∧ t = raise (some c) .trapdoorRejected (invalidateKey s)) ∨
      (∃ k, deriveKey v s.p s.q s.e = some k ∧ t = complete (installKey v k s)) := by
  simp only [keyload] at h
  split at h <;> injection h with h
  · exact .inl ⟨‹_›, h.symm⟩
  · exact .inr ⟨_, ‹_›, h.symm⟩

theorem execPfwd_cases {s t : State} (h : exec .pfwd s = .next t) :
    (s.keyv = false ∧ t = raise (some .pfwd) .noKey s) ∨
      (s.keyv = true ∧ t = complete { s with r := fwd s s.a }) := by
  rcases withKey_cases h with h | ⟨hk, h⟩
  · exact .inl h
  · injection h with h; exact .inr ⟨hk, h.symm⟩

theorem execPinv_cases {s t : State} (h : exec .pinv s = .next t) :
    (s.keyv = false ∧ t = raise (some .pinv) .noKey s) ∨
      (s.keyv = true ∧ inv s s.a = none ∧ t = raise (some .pinv) .inversionFailed s) ∨
      (s.keyv = true ∧ ∃ u, inv s s.a = some u ∧ t = complete { s with r := u }) := by
  rcases withKey_cases h with h | ⟨hk, h⟩
  · exact .inl h
  · split at h <;> injection h with h
    · exact .inr (.inl ⟨hk, ‹_›, h.symm⟩)
    · exact .inr (.inr ⟨hk, _, ‹_›, h.symm⟩)

theorem execQrtest_cases {s t : State} (h : exec .qrtest s = .next t) :
    ((s.keyv = false ∨ s.var = .b) ∧ t = raise (some .qrtest) .noKey s) ∨
      (s.keyv = true ∧ s.var = .a ∧ t = complete { s with flag := qr s s.a }) := by
  rcases withKey_cases h with ⟨hk, h⟩ | ⟨hk, h⟩
  · exact .inl ⟨.inl hk, h⟩
  · split at h <;> injection h with h
    · exact .inr ⟨hk, ‹_›, h.symm⟩
    · exact .inl ⟨.inr ‹_›, h.symm⟩

theorem execEncode_cases {s t : State} (h : exec .encode s = .next t) :
    (s.keyv = false ∧ t = raise (some .encode) .noKey s) ∨
      (s.keyv = true ∧ t = complete
        { s with
          cwX := (encodeLoop (fwd s) s.x0 Config.K).cur
          cwP := (encodeLoop (fwd s) s.x0 Config.K).seq
          cur := (encodeLoop (fwd s) s.x0 Config.K).cur
          stepReg := BitVec.ofNat 32 Config.K
          cwvx := true
          cwvp := true }) := by
  rcases withKey_cases h with h | ⟨hk, h⟩
  · exact .inl h
  · injection h with h; exact .inr ⟨hk, h.symm⟩

theorem execDecode_cases {s t : State} (h : exec .decode s = .next t) :
    (s.keyv = false ∧ t = raise (some .decode) .noKey s) ∨
      (s.keyv = true ∧ (s.cwvx && s.cwvp) = false ∧ t = raise (some .decode) .lengthMismatch s) ∨
      (s.keyv = true ∧ (s.cwvx && s.cwvp) = true ∧
        t = decodeCommit { s with cwvx := false, cwvp := false } (decodeLoop (inv s) s.cwP Config.K 0 s.cwX)) := by
  rcases withKey_cases h with h | ⟨hk, h⟩
  · exact .inl h
  · split at h <;> injection h with h
    · exact .inr (.inr ⟨hk, ‹_›, h.symm⟩)
    · exact .inr (.inl ⟨hk, by simp_all, h.symm⟩)

/-! ## The commands in each of their cases, as equations -/

/-- No error has the code 0. -/
@[simp] theorem errcode_ne_zero (x : ErrorKind) : x.errcode ≠ 0#8 := by cases x <;> decide

/-- Each form of `KEYLOAD` is `keyload` of its variant. -/
theorem exec_keyload {i : Instr} (h : i ∈ [Instr.keyloadA, .keyloadB]) : ∃ v, exec i = keyload i v := by
  simp only [List.mem_cons, List.not_mem_nil, or_false] at h
  rcases h with rfl | rfl
  · exact ⟨.a, rfl⟩
  · exact ⟨.b, rfl⟩

theorem exec_pfwd_of_key {s : State} (hk : s.keyv = true) :
    exec .pfwd s = .next (complete { s with r := fwd s s.a }) :=
  withKey_of_keyv hk

theorem exec_pinv_of_some {s : State} {u : Word} (hk : s.keyv = true) (h : inv s s.a = some u) :
    exec .pinv s = .next (complete { s with r := u }) := by
  simp only [exec, execPinv, withKey_of_keyv hk, h]

theorem exec_pinv_of_none {s : State} (hk : s.keyv = true) (h : inv s s.a = none) :
    exec .pinv s = .next (raise (some .pinv) .inversionFailed s) := by
  simp only [exec, execPinv, withKey_of_keyv hk, h]

theorem exec_qrtest_of_a {s : State} (hk : s.keyv = true) (hv : s.var = .a) :
    exec .qrtest s = .next (complete { s with flag := qr s s.a }) := by
  rw [exec, execQrtest, withKey_of_keyv hk]
  split
  · rfl
  · simp_all

/-- A variant (b) key is no key for `QRTEST` (42_permutation.md R116). -/
theorem exec_qrtest_of_b {s : State} (hv : s.var = .b) :
    exec .qrtest s = .next (raise (some .qrtest) .noKey s) := by
  rw [exec, execQrtest, withKey]
  split
  · split
    · simp_all
    · rfl
  · rfl

/-- `ENCODE` under a key: its last iterate is the 31st forward image of the seed (44_codec.md R136). -/
theorem exec_encode_of_key {s : State} (hk : s.keyv = true) :
    exec .encode s = .next (complete
      { s with
        cwX := (encodeLoop (fwd s) s.x0 Config.K).cur
        cwP := (encodeLoop (fwd s) s.x0 Config.K).seq
        cur := (encodeLoop (fwd s) s.x0 Config.K).cur
        stepReg := BitVec.ofNat 32 Config.K
        cwvx := true
        cwvp := true }) :=
  withKey_of_keyv hk

theorem exec_decode_of_valid {s : State} (hk : s.keyv = true) (hx : s.cwvx = true) (hp : s.cwvp = true) :
    exec .decode s =
      .next (decodeCommit { s with cwvx := false, cwvp := false } (decodeLoop (inv s) s.cwP Config.K 0 s.cwX)) := by
  rw [exec, execDecode, withKey_of_keyv hk, if_pos (by rw [hx, hp]; rfl)]

theorem exec_decode_of_incomplete {s : State} (hk : s.keyv = true) (h : s.cwvx = false ∨ s.cwvp = false) :
    exec .decode s = .next (raise (some .decode) .lengthMismatch s) := by
  rw [exec, execDecode, withKey_of_keyv hk, if_neg (by rcases h with h | h <;> rw [h] <;> simp)]

end Sys2Proof.Machine
end

