-- ==== Sys2Proof/Laws/PerInstr.lean ====
section
/-!
SUPPORT. Laws/PerInstr.lean: statements for all instructions, one lemma per constructor. The family `Encoding` is about the
instruction as syntax: its word's fields are well formed by the checks of 30_encoding.md R64.
-/

namespace Sys2Proof.Laws.Encoding

/-- The instruction is well formed and so are the fields of its word. -/
def Statement (i : Instr) : Prop :=
  i.wellFormed = true ∧ (commandFields (encode i)).wellFormed = true

theorem nop : Statement .nop := by unfold Statement; decide
theorem modpow : Statement .modpow := by unfold Statement; decide
theorem modinv : Statement .modinv := by unfold Statement; decide
theorem qrtest : Statement .qrtest := by unfold Statement; decide
theorem pred : Statement .pred := by unfold Statement; decide
theorem keyloadA : Statement .keyloadA := by unfold Statement; decide
theorem keyloadB : Statement .keyloadB := by unfold Statement; decide
theorem pfwd : Statement .pfwd := by unfold Statement; decide
theorem pinv : Statement .pinv := by unfold Statement; decide
theorem encode : Statement .encode := by unfold Statement; decide
theorem decode : Statement .decode := by unfold Statement; decide
theorem sreset : Statement .sreset := by unfold Statement; decide

end Sys2Proof.Laws.Encoding
end

