-- ==== Sys2Proof/Laws/Trapdoor.lean ====
section
/-!
SUPPORT. Laws/Trapdoor.lean: what `deriveKey` answers, and when (41_trapdoor_key.md R101, R102).
-/

namespace Sys2Proof.Machine

open Sys2Proof.Safety

/-- What the derived constants are (41_trapdoor_key.md R101, R102). -/
structure KeyDerived (v : Variant) (p q e : Word) (k : DerivedKey) : Prop where
  n : k.n.toNat = p.toNat * q.toNat
  phi : k.phi.toNat = (p.toNat - 1) * (q.toNat - 1)
  crtC_lt : k.crtC.toNat < p.toNat * q.toNat
  crtC_p : k.crtC.toNat % p.toNat = 1
  crtC_q : k.crtC.toNat % q.toNat = 0
  crtD_lt : k.crtD.toNat < p.toNat * q.toNat
  crtD_p : k.crtD.toNat % p.toNat = 0
  crtD_q : k.crtD.toNat % q.toNat = 1
  dexp_a : v = .a → k.dexp = 0#32
  dexp_b : v = .b → k.dexp.toNat < (p.toNat - 1) * (q.toNat - 1) ∧
    e.toNat * k.dexp.toNat ≡ 1 [MOD (p.toNat - 1) * (q.toNat - 1)]

theorem word_ne_zero_of_pos {m : Word} (h : 0 < m.toNat) : m ≠ 0#32 := by
  rintro rfl
  simp at h

/-- A CRT coefficient: `x * inverse of x modulo y`, reduced modulo `x * y`, is 1 modulo `y` and 0 modulo `x`. -/
theorem crt_coefficient {x y n i : Word} (hy : 2 ≤ y.toNat) (hn : n.toNat = x.toNat * y.toNat) (hpos : 0 < n.toNat)
    (hi : modinv x y = some i) :
    (mulmod x i n).toNat < x.toNat * y.toNat ∧ (mulmod x i n).toNat % y.toNat = 1 ∧
      (mulmod x i n).toNat % x.toNat = 0 := by
  have hn0 := word_ne_zero_of_pos hpos
  obtain ⟨-, hmul⟩ := modinv_spec (word_ne_zero_of_pos (by omega)) hi
  refine ⟨hn ▸ mulmod_lt hn0 _ _, ?_, ?_⟩
  · rw [mulmod_toNat hn0, hn, Nat.mod_mul_left_mod]
    rw [Nat.ModEq, Nat.mod_eq_of_lt (show 1 < y.toNat by omega)] at hmul
    exact hmul
  · rw [mulmod_toNat hn0, hn, Nat.mod_mul_right_mod]
    exact Nat.mul_mod_right _ _

/-- `deriveKey` succeeds exactly on acceptable operands. -/
theorem deriveKey_isSome_iff (v : Variant) (p q e : Word) :
    (∃ k, deriveKey v p q e = some k) ↔ KeyAcceptable v p q e := by
  unfold deriveKey KeyAcceptable
  by_cases h2 : p.toNat < 2 ∨ q.toNat < 2
  · rw [if_pos h2]
    constructor
    · rintro ⟨k, hk⟩; cases hk
    · rintro ⟨hp, hq, -⟩; omega
  rw [if_neg h2]
  by_cases hn : p.toNat * q.toNat ≥ Config.nMax
  · rw [if_pos hn]
    constructor
    · rintro ⟨k, hk⟩; cases hk
    · rintro ⟨-, -, hlt, -⟩; simp only [Config.nMax] at hn; omega
  rw [if_neg hn]
  by_cases hv : v = .a ∧ (p.toNat % 4 ≠ 3 ∨ q.toNat % 4 ≠ 3)
  · rw [if_pos hv]
    constructor
    · rintro ⟨k, hk⟩; cases hk
    · rintro ⟨-, -, -, h4, -⟩; have := h4 hv.1; omega
  rw [if_neg hv]
  have hp0 : p ≠ 0#32 := word_ne_zero_of_pos (by omega)
  have hq0 : q ≠ 0#32 := word_ne_zero_of_pos (by omega)
  by_cases hc : Nat.Coprime p.toNat q.toNat
  · obtain ⟨qi, hqi⟩ := modinv_of_coprime hp0 hc.symm
    obtain ⟨pi, hpi⟩ := modinv_of_coprime hq0 hc
    simp only [hqi, hpi]
    have hphi : (BitVec.ofNat 32 ((p.toNat - 1) * (q.toNat - 1))).toNat = (p.toNat - 1) * (q.toNat - 1) := by
      have : (p.toNat - 1) * (q.toNat - 1) ≤ p.toNat * q.toNat := Nat.mul_le_mul (by omega) (by omega)
      simp only [Config.nMax] at hn
      rw [BitVec.toNat_ofNat, Nat.mod_eq_of_lt (by omega)]
    have hphi0 : BitVec.ofNat 32 ((p.toNat - 1) * (q.toNat - 1)) ≠ 0#32 := by
      apply word_ne_zero_of_pos
      rw [hphi]
      exact Nat.mul_pos (by omega) (by omega)
    have hpre : (2 ≤ p.toNat ∧ 2 ≤ q.toNat ∧ p.toNat * q.toNat < 2 ^ 32) ∧
        (v = .a → p.toNat % 4 = 3 ∧ q.toNat % 4 = 3) := by
      simp only [Config.nMax] at hn
      exact ⟨⟨by omega, by omega, by omega⟩, fun h => by by_contra h'; exact hv ⟨h, by omega⟩⟩
    cases v with
    | a =>
      simp only [privateExponent]
      exact ⟨fun _ => ⟨hpre.1.1, hpre.1.2.1, hpre.1.2.2, fun _ => hpre.2 rfl, hc, by simp⟩, fun _ => ⟨_, rfl⟩⟩
    | b =>
      simp only [privateExponent]
      rcases hx : modinv e (BitVec.ofNat 32 ((p.toNat - 1) * (q.toNat - 1))) with _ | t
      · rw [modinv_eq_none_iff hphi0, hphi] at hx
        constructor
        · rintro ⟨k, hk⟩; cases hk
        · rintro ⟨-, -, -, -, -, h⟩; exact absurd (h trivial) hx
      · have hce : Nat.Coprime e.toNat ((p.toNat - 1) * (q.toNat - 1)) := by
          by_contra hno
          rw [← hphi, ← modinv_eq_none_iff hphi0] at hno
          rw [hno] at hx
          cases hx
        exact ⟨fun _ => ⟨hpre.1.1, hpre.1.2.1, hpre.1.2.2, by simp, hc, fun _ => hce⟩, fun _ => ⟨_, rfl⟩⟩
  · have : modinv p q = none := (modinv_eq_none_iff hq0 p).mpr hc
    constructor
    · rintro ⟨k, hk⟩
      rw [this] at hk
      cases hqi : modinv q p <;> simp [hqi] at hk
    · rintro ⟨-, -, -, -, h, -⟩; exact absurd h hc

/-- What a successful `deriveKey` answers. -/
theorem deriveKey_spec {v : Variant} {p q e : Word} {k : DerivedKey} (hk : deriveKey v p q e = some k) :
    KeyAcceptable v p q e ∧ KeyDerived v p q e k := by
  have hacc := (deriveKey_isSome_iff v p q e).mp ⟨k, hk⟩
  refine ⟨hacc, ?_⟩
  obtain ⟨hp, hq, hlt, hv, hc, he⟩ := hacc
  have hphile : (p.toNat - 1) * (q.toNat - 1) ≤ p.toNat * q.toNat := Nat.mul_le_mul (by omega) (by omega)
  have hn : (BitVec.ofNat 32 (p.toNat * q.toNat)).toNat = p.toNat * q.toNat := by
    rw [BitVec.toNat_ofNat, Nat.mod_eq_of_lt hlt]
  have hphi : (BitVec.ofNat 32 ((p.toNat - 1) * (q.toNat - 1))).toNat = (p.toNat - 1) * (q.toNat - 1) := by
    rw [BitVec.toNat_ofNat, Nat.mod_eq_of_lt (by omega)]
  have hphi0 : BitVec.ofNat 32 ((p.toNat - 1) * (q.toNat - 1)) ≠ 0#32 := by
    apply word_ne_zero_of_pos
    rw [hphi]
    exact Nat.mul_pos (by omega) (by omega)
  have hnpos : 0 < (BitVec.ofNat 32 (p.toNat * q.toNat)).toNat := by
    rw [hn]; exact Nat.mul_pos (by omega) (by omega)
  unfold deriveKey at hk
  rw [if_neg (by omega), if_neg (by simp only [Config.nMax]; omega),
    if_neg (fun h => by have := hv h.1; omega)] at hk
  rcases hqi : modinv q p with _ | qi
  · simp [hqi] at hk
  rcases hpi : modinv p q with _ | pi
  · simp [hqi, hpi] at hk
  simp only [hqi, hpi] at hk
  rcases hdx : privateExponent v e (BitVec.ofNat 32 ((p.toNat - 1) * (q.toNat - 1))) with _ | dx
  · simp [hdx] at hk
  simp only [hdx, Option.some.injEq] at hk
  subst hk
  obtain ⟨c1, c2, c3⟩ := crt_coefficient hp (by rw [hn, Nat.mul_comm]) hnpos hqi
  obtain ⟨d1, d2, d3⟩ := crt_coefficient hq hn hnpos hpi
  refine ⟨hn, hphi, Nat.mul_comm q.toNat p.toNat ▸ c1, c2, c3, d1, d3, d2, ?_, ?_⟩
  · rintro rfl
    simpa [privateExponent] using hdx.symm
  · rintro rfl
    have := modinv_spec hphi0 (show modinv e _ = some dx from hdx)
    rwa [hphi] at this

end Sys2Proof.Machine
end

