-- ==== Sys2Proof/Laws/Permutation.lean ====
section
/-!
SUPPORT. Laws/Permutation.lean: what `fwd`, `inv` and `qr` compute under a consistent key (42_permutation.md R110 to R117).
-/

namespace Sys2Proof.Machine

open Sys2Proof.Safety

/-- A consistent valid key, unpacked: the operands are acceptable and the registers hold what they should. -/
theorem key_spec {s : State} (hv : s.keyv = true) (hc : KeyConsistent s) :
    KeyAcceptable s.var s.p s.q s.e ∧ KeyDerived s.var s.p s.q s.e (derivedKey s) := by
  rw [KeyConsistent, if_pos hv] at hc
  exact deriveKey_spec hc

/-- Consistency is about the key registers alone. -/
theorem keyConsistent_congr {s t : State} (hp : t.p = s.p) (hq : t.q = s.q) (he : t.e = s.e)
    (hd : derivedKey t = derivedKey s) (hv : t.var = s.var) (hk : t.keyv = s.keyv) :
    KeyConsistent t ↔ KeyConsistent s := by
  simp only [KeyConsistent, hp, hq, he, hd, hv, hk]

/-- What the permutation needs of the key registers, whatever the variant. -/
structure KeyNumbers (s : State) : Prop where
  p_two : 2 ≤ s.p.toNat
  q_two : 2 ≤ s.q.toNat
  coprime : Nat.Coprime s.p.toNat s.q.toNat
  n : s.n.toNat = s.p.toNat * s.q.toNat
  p0 : s.p ≠ 0#32
  q0 : s.q ≠ 0#32
  n0 : s.n ≠ 0#32
  crtC_p : s.crtC.toNat % s.p.toNat = 1
  crtC_q : s.crtC.toNat % s.q.toNat = 0
  crtD_p : s.crtD.toNat % s.p.toNat = 0
  crtD_q : s.crtD.toNat % s.q.toNat = 1

theorem keyNumbers {s : State} (hv : s.keyv = true) (hc : KeyConsistent s) : KeyNumbers s := by
  obtain ⟨⟨hp, hq, -, -, hcop, -⟩, hd⟩ := key_spec hv hc
  have hn : s.n.toNat = s.p.toNat * s.q.toNat := hd.n
  exact ⟨hp, hq, hcop, hn, word_ne_zero_of_pos (by omega), word_ne_zero_of_pos (by omega),
    word_ne_zero_of_pos (by rw [hn]; exact Nat.mul_pos (by omega) (by omega)), hd.crtC_p, hd.crtC_q, hd.crtD_p, hd.crtD_q⟩

/-! ## Forward -/

theorem fwd_toNat_a {s : State} (hn : s.n ≠ 0#32) (hv : s.var = .a) (x : Word) :
    (fwd s x).toNat = x.toNat ^ 2 % s.n.toNat := by
  simp only [fwd, hv]
  rw [mulmod_toNat hn, reduce_toNat hn, ← Nat.mul_mod, pow_two]

theorem fwd_toNat_b {s : State} (hn : s.n ≠ 0#32) (hv : s.var = .b) (x : Word) :
    (fwd s x).toNat = x.toNat ^ s.e.toNat % s.n.toNat := by
  simp only [fwd, hv]
  exact modpow_toNat hn x s.e

/-- "The result is always in `0 .. N - 1`" (42_permutation.md R110). -/
theorem fwd_lt {s : State} (hn : s.n ≠ 0#32) (x : Word) : (fwd s x).toNat < s.n.toNat := by
  rcases hv : s.var with _ | _
  · rw [fwd_toNat_a hn hv]; exact Nat.mod_lt _ (word_toNat_pos hn)
  · rw [fwd_toNat_b hn hv]; exact Nat.mod_lt _ (word_toNat_pos hn)

theorem invB_toNat {s : State} (hn : s.n ≠ 0#32) (x : Word) :
    (invB s x).toNat = x.toNat ^ s.dexp.toNat % s.n.toNat :=
  modpow_toNat hn x s.dexp

/-! ## Square roots modulo a prime factor -/

theorem rootExponent_toNat (p : Word) : (rootExponent p).toNat = (p.toNat + 1) / 4 := by
  have := p.isLt
  rw [rootExponent, BitVec.toNat_ofNat, Nat.mod_eq_of_lt (by omega)]

theorem rootMod_toNat {p : Word} (hp : p ≠ 0#32) (a : Word) :
    (rootMod a p).toNat = a.toNat ^ ((p.toNat + 1) / 4) % p.toNat := by
  rw [rootMod, modpow_toNat hp, rootExponent_toNat]

theorem rootMod_lt {p : Word} (hp : p ≠ 0#32) (a : Word) : (rootMod a p).toNat < p.toNat := modpow_lt hp _ _

/-- The root depends on the residue class of its argument only (42_permutation.md R119). -/
theorem rootMod_congr {p a b : Word} (hp : p ≠ 0#32) (h : a.toNat ≡ b.toNat [MOD p.toNat]) :
    rootMod a p = rootMod b p := by
  apply BitVec.eq_of_toNat_eq
  rw [rootMod_toNat hp, rootMod_toNat hp]
  exact h.pow _

theorem rootVerifies_iff {p : Word} (hp : p ≠ 0#32) (a : Word) :
    rootVerifies a p = true ↔ (rootMod a p).toNat * (rootMod a p).toNat ≡ a.toNat [MOD p.toNat] := by
  rw [rootVerifies, beq_iff_eq, ← BitVec.toNat_inj, mulmod_toNat hp, reduce_toNat hp]
  rfl

theorem qr_iff {s : State} (hk : KeyNumbers s) (a : Word) :
    qr s a = true ↔
      (rootMod a s.p).toNat * (rootMod a s.p).toNat ≡ a.toNat [MOD s.p.toNat] ∧
        (rootMod a s.q).toNat * (rootMod a s.q).toNat ≡ a.toNat [MOD s.q.toNat] := by
  rw [qr, Bool.and_eq_true, rootVerifies_iff hk.p0, rootVerifies_iff hk.q0]

/-! ## The candidates of variant (a) -/

/-- The four candidates modulo `P` and modulo `Q`: `(x, y)`, `(x, -y)`, `(-x, y)`, `(-x, -y)` for the two roots `x` and `y`.
A negated residue is written `P * Q - ..`, which is non-negative and the same modulo both. -/
theorem candidate_residues {s : State} (hk : KeyNumbers s) (a : Word) :
    ∃ c0 c1 c2 c3 : Word, candidates s a = [c0, c1, c2, c3] ∧
      (c0.toNat < s.n.toNat ∧ c1.toNat < s.n.toNat ∧ c2.toNat < s.n.toNat ∧ c3.toNat < s.n.toNat) ∧
      (c0.toNat ≡ (rootMod a s.p).toNat [MOD s.p.toNat] ∧ c0.toNat ≡ (rootMod a s.q).toNat [MOD s.q.toNat]) ∧
      (c1.toNat ≡ (rootMod a s.p).toNat [MOD s.p.toNat] ∧
        c1.toNat + (rootMod a s.q).toNat ≡ 0 [MOD s.q.toNat]) ∧
      (c2.toNat + (rootMod a s.p).toNat ≡ 0 [MOD s.p.toNat] ∧ c2.toNat ≡ (rootMod a s.q).toNat [MOD s.q.toNat]) ∧
      (c3.toNat + (rootMod a s.p).toNat ≡ 0 [MOD s.p.toNat] ∧
        c3.toNat + (rootMod a s.q).toNat ≡ 0 [MOD s.q.toNat]) := by
  set x := rootMod a s.p with hx
  set y := rootMod a s.q with hy
  set u := (mulmod s.crtC x s.n).toNat with hu
  set w := (mulmod s.crtD y s.n).toNat with hw
  have hulE : u < s.n.toNat := mulmod_lt hk.n0 _ _
  have hwlE : w < s.n.toNat := mulmod_lt hk.n0 _ _
  have hpn : s.p.toNat ∣ s.n.toNat := hk.n ▸ dvd_mul_right _ _
  have hqn : s.q.toNat ∣ s.n.toNat := hk.n ▸ dvd_mul_left _ _
  have one_p : 1 % s.p.toNat = 1 := Nat.mod_eq_of_lt (by have := hk.p_two; omega)
  have one_q : 1 % s.q.toNat = 1 := Nat.mod_eq_of_lt (by have := hk.q_two; omega)
  have up : u ≡ x.toNat [MOD s.p.toNat] := by
    have h1 : u ≡ s.crtC.toNat * x.toNat [MOD s.p.toNat] := by
      rw [hu, mulmod_toNat hk.n0]; exact (Nat.mod_modEq _ _).of_dvd hpn
    have h2 : s.crtC.toNat ≡ 1 [MOD s.p.toNat] := by rw [Nat.ModEq, hk.crtC_p, one_p]
    simpa using h1.trans (h2.mul_right _)
  have uq : u ≡ 0 [MOD s.q.toNat] := by
    have h1 : u ≡ s.crtC.toNat * x.toNat [MOD s.q.toNat] := by
      rw [hu, mulmod_toNat hk.n0]; exact (Nat.mod_modEq _ _).of_dvd hqn
    have h2 : s.crtC.toNat ≡ 0 [MOD s.q.toNat] := by rw [Nat.ModEq, hk.crtC_q, Nat.zero_mod]
    simpa using h1.trans (h2.mul_right _)
  have wp : w ≡ 0 [MOD s.p.toNat] := by
    have h1 : w ≡ s.crtD.toNat * y.toNat [MOD s.p.toNat] := by
      rw [hw, mulmod_toNat hk.n0]; exact (Nat.mod_modEq _ _).of_dvd hpn
    have h2 : s.crtD.toNat ≡ 0 [MOD s.p.toNat] := by rw [Nat.ModEq, hk.crtD_p, Nat.zero_mod]
    simpa using h1.trans (h2.mul_right _)
  have wq : w ≡ y.toNat [MOD s.q.toNat] := by
    have h1 : w ≡ s.crtD.toNat * y.toNat [MOD s.q.toNat] := by
      rw [hw, mulmod_toNat hk.n0]; exact (Nat.mod_modEq _ _).of_dvd hqn
    have h2 : s.crtD.toNat ≡ 1 [MOD s.q.toNat] := by rw [Nat.ModEq, hk.crtD_q, one_q]
    simpa using h1.trans (h2.mul_right _)
  have np : s.n.toNat ≡ 0 [MOD s.p.toNat] := (Nat.modEq_zero_iff_dvd).mpr hpn
  have nq : s.n.toNat ≡ 0 [MOD s.q.toNat] := (Nat.modEq_zero_iff_dvd).mpr hqn
  have red : ∀ (v m : Nat), m ∣ s.n.toNat → (reduce v s.n).toNat ≡ v [MOD m] := by
    intro v m hm
    rw [reduce_toNat hk.n0]
    exact (Nat.mod_modEq _ _).of_dvd hm
  -- the negated terms, as numbers whose sum with the term is `N`
  obtain ⟨nw, hnw⟩ : ∃ nw, nw + w = s.n.toNat := ⟨s.n.toNat - w, by omega⟩
  obtain ⟨nu, hnu⟩ : ∃ nu, nu + u = s.n.toNat := ⟨s.n.toNat - u, by omega⟩
  have nwp : nw ≡ 0 [MOD s.p.toNat] := by
    have : nw + w ≡ 0 + 0 [MOD s.p.toNat] := by rw [hnw]; exact np
    exact Nat.ModEq.add_right_cancel wp this
  have nwq : nw + y.toNat ≡ 0 [MOD s.q.toNat] := by
    have : nw + w ≡ 0 [MOD s.q.toNat] := by rw [hnw]; exact nq
    exact (wq.symm.add_left nw).trans this
  have nuq : nu ≡ 0 [MOD s.q.toNat] := by
    have : nu + u ≡ 0 + 0 [MOD s.q.toNat] := by rw [hnu]; exact nq
    exact Nat.ModEq.add_right_cancel uq this
  have nup : nu + x.toNat ≡ 0 [MOD s.p.toNat] := by
    have : nu + u ≡ 0 [MOD s.p.toNat] := by rw [hnu]; exact np
    exact (up.symm.add_left nu).trans this
  have e1 : u + s.n.toNat - w = u + nw := by omega
  have e2 : s.n.toNat - u + w = nu + w := by omega
  have e3 : s.n.toNat - u + (s.n.toNat - w) = nu + nw := by omega
  refine ⟨reduce (u + w) s.n, reduce (u + nw) s.n, reduce (nu + w) s.n, reduce (nu + nw) s.n, ?_,
    ⟨reduce_lt hk.n0 _, reduce_lt hk.n0 _, reduce_lt hk.n0 _, reduce_lt hk.n0 _⟩, ⟨?_, ?_⟩, ⟨?_, ?_⟩, ⟨?_, ?_⟩, ?_, ?_⟩
  · rw [← e1, ← e2, ← e3]; rfl
  · simpa using (red _ _ hpn).trans (up.add wp)
  · simpa using (red _ _ hqn).trans (uq.add wq)
  · simpa using (red _ _ hpn).trans (up.add nwp)
  · have := ((red (u + nw) _ hqn).add_right y.toNat)
    rw [add_assoc] at this
    simpa using this.trans (uq.add nwq)
  · have := ((red (nu + w) _ hpn).add_right x.toNat)
    rw [add_right_comm] at this
    simpa using this.trans (nup.add wp)
  · simpa using (red _ _ hqn).trans (nuq.add wq)
  · have := ((red (nu + nw) _ hpn).add_right x.toNat)
    rw [add_right_comm] at this
    simpa using this.trans (nup.add nwp)
  · have := ((red (nu + nw) _ hqn).add_right y.toNat)
    rw [add_assoc] at this
    simpa using this.trans (nuq.add nwq)

/-- Numbers that add up to 0 modulo `m` have the same square modulo `m`. -/
theorem sq_modEq_of_add_modEq_zero {c x m : Nat} (h : c + x ≡ 0 [MOD m]) : c * c ≡ x * x [MOD m] := by
  have h' : (m : Int) ∣ (c : Int) + x := by
    have := (Nat.modEq_zero_iff_dvd).mp h
    exact_mod_cast this
  apply (Nat.modEq_iff_dvd).mpr
  have : ((x * x : Nat) : Int) - ((c * c : Nat) : Int) = ((c : Int) + x) * (x - c) := by push_cast; ring
  rw [this]
  exact Dvd.dvd.mul_right h' _

/-- The test that `inv_a` makes of a candidate, modulo `P` and modulo `Q`. -/
theorem square_check_iff {s : State} (hk : KeyNumbers s) (c a0 : Word) :
    (mulmod c c s.n == reduce a0.toNat s.n) = true ↔
      c.toNat * c.toNat ≡ a0.toNat [MOD s.p.toNat] ∧ c.toNat * c.toNat ≡ a0.toNat [MOD s.q.toNat] := by
  rw [beq_iff_eq, ← BitVec.toNat_inj, mulmod_toNat hk.n0, reduce_toNat hk.n0]
  change (c.toNat * c.toNat ≡ a0.toNat [MOD s.n.toNat]) ↔ _
  rw [hk.n]
  exact (Nat.modEq_and_modEq_iff_modEq_mul hk.coprime).symm

/-- Reducing the operand modulo `N` first does not change its roots. -/
theorem rootMod_reduce {s : State} (hk : KeyNumbers s) (a0 : Word) :
    rootMod (reduce a0.toNat s.n) s.p = rootMod a0 s.p ∧ rootMod (reduce a0.toNat s.n) s.q = rootMod a0 s.q := by
  have h : (reduce a0.toNat s.n).toNat ≡ a0.toNat [MOD s.n.toNat] := by
    rw [reduce_toNat hk.n0]; exact Nat.mod_modEq _ _
  exact ⟨rootMod_congr hk.p0 (h.of_dvd (hk.n ▸ dvd_mul_right _ _)),
    rootMod_congr hk.q0 (h.of_dvd (hk.n ▸ dvd_mul_left _ _))⟩

/-- Either all four candidates validate or none does, and they do exactly when `qr` holds (42_permutation.md R117 points 1
and 2). This needs no primality. -/
theorem candidates_validate_iff {s : State} (hk : KeyNumbers s) (a0 c : Word)
    (hc : c ∈ candidates s (reduce a0.toNat s.n)) :
    (mulmod c c s.n == reduce a0.toNat s.n) = true ↔ qr s a0 = true := by
  obtain ⟨c0, c1, c2, c3, hlist, -, ⟨h0p, h0q⟩, ⟨h1p, h1q⟩, ⟨h2p, h2q⟩, h3p, h3q⟩ :=
    candidate_residues hk (reduce a0.toNat s.n)
  obtain ⟨hrp, hrq⟩ := rootMod_reduce hk a0
  rw [hrp] at h0p h1p h2p h3p
  rw [hrq] at h0q h1q h2q h3q
  rw [hlist] at hc
  rw [square_check_iff hk, qr_iff hk]
  have key : ∀ {m : Nat} {t r : Nat}, t * t ≡ r * r [MOD m] → ∀ b : Nat,
      (t * t ≡ b [MOD m] ↔ r * r ≡ b [MOD m]) := fun h b => ⟨fun h' => h.symm.trans h', fun h' => h.trans h'⟩
  simp only [List.mem_cons, List.not_mem_nil, or_false] at hc
  rcases hc with rfl | rfl | rfl | rfl
  · rw [key (h0p.mul h0p), key (h0q.mul h0q)]
  · rw [key (h1p.mul h1p), key (sq_modEq_of_add_modEq_zero h1q)]
  · rw [key (sq_modEq_of_add_modEq_zero h2p), key (h2q.mul h2q)]
  · rw [key (sq_modEq_of_add_modEq_zero h3p), key (sq_modEq_of_add_modEq_zero h3q)]

/-- `inv_a` answers the first candidate where `qr` holds and fails elsewhere (42_permutation.md R117 points 2 and 3). -/
theorem invA_spec {s : State} (hk : KeyNumbers s) (a0 : Word) :
    (qr s a0 = true → ∃ c, invA s a0 = some c ∧ c.toNat < s.n.toNat ∧
      (candidates s (reduce a0.toNat s.n)).head? = some c ∧
      c.toNat ≡ (rootMod a0 s.p).toNat [MOD s.p.toNat] ∧ c.toNat ≡ (rootMod a0 s.q).toNat [MOD s.q.toNat]) ∧
    (qr s a0 = false → invA s a0 = none) := by
  obtain ⟨c0, c1, c2, c3, hlist, ⟨hlt, -⟩, ⟨h0p, h0q⟩, -⟩ := candidate_residues hk (reduce a0.toNat s.n)
  obtain ⟨hrp, hrq⟩ := rootMod_reduce hk a0
  rw [hrp] at h0p
  rw [hrq] at h0q
  have hval := candidates_validate_iff hk a0
  rw [hlist] at hval
  refine ⟨fun hq => ⟨c0, ?_, hlt, by rw [hlist]; rfl, h0p, h0q⟩, fun hq => ?_⟩
  · have := (hval c0 (by simp)).mpr hq
    simp only [invA, hlist, List.find?_cons, this]
  · simp only [invA, hlist]
    apply List.find?_eq_none.mpr
    intro c hc hcheck
    have := (hval c hc).mp hcheck
    rw [hq] at this
    cases this

end Sys2Proof.Machine
end

