-- ==== Sys2Proof/Laws/Port.lean ====
section
/-!
SUPPORT. Laws/Port.lean: the register map and the effect of port events (20_memory.md R41 to R45).
-/

namespace Sys2Proof.Machine

@[simp] theorem regAt_offset (g : Reg) : regAt g.offset = some g := by
  cases g <;> decide

@[simp] theorem accessOk_offset (g : Reg) : accessOk g.offset 4 = true := by
  cases g <;> decide

/-- The offsets are distinct. -/
theorem offset_injective {g h : Reg} (e : g.offset = h.offset) : g = h := by
  have := congrArg regAt e
  simpa using this

/-- An aligned offset without a register is a reserved one, 0x54 to 0xFC (20_memory.md R41). -/
theorem regAt_eq_none_iff (off : Byte) (h : off.toNat % 4 = 0) : regAt off = none ↔ 0x54 ≤ off.toNat := by
  revert off
  decide

/-- An event issues a command exactly when it is a performed write to `CMD`. -/
theorem commandIssued_eq_some_iff (ev : PortEvent) (w : Word) :
    commandIssued ev = some w ↔ ev = commandWrite w := by
  cases ev with
  | rd off n => simp [commandIssued, commandWrite]
  | resetInput => simp [commandIssued, commandWrite]
  | wr off n v =>
    by_cases h : (accessOk off n && off == Reg.offset .cmd) = true
    · obtain ⟨h1, h2⟩ := (Bool.and_eq_true _ _).mp h
      have ho : off = Reg.offset .cmd := by simpa using h2
      have hn : n = 4 := by
        simp only [accessOk, Bool.and_eq_true, beq_iff_eq] at h1
        exact h1.1
      subst ho hn
      simp [commandIssued, commandWrite]
    · simp only [commandIssued, if_neg h]
      constructor
      · intro h'; cases h'
      · intro h'
        simp only [commandWrite, PortEvent.wr.injEq] at h'
        obtain ⟨rfl, rfl, -⟩ := h'
        exact absurd (by decide) h

@[simp] theorem commandIssued_commandWrite (w : Word) : commandIssued (commandWrite w) = some w :=
  (commandIssued_eq_some_iff _ w).mpr rfl

/-- A performed read of a register returns its value and changes nothing (20_memory.md R43). -/
@[simp] theorem hostRead_offset (g : Reg) (s : State) : hostRead g.offset 4 s = (readReg s g, s) := by
  simp [hostRead]

@[simp] theorem hostWrite_offset (g : Reg) (v : Word) (s : State) : hostWrite g.offset 4 v s = writeReg s v g := by
  simp [hostWrite]

/-- Everything a read can do: return a register's value and change nothing, or return 0 and log a bus error. -/
theorem hostRead_cases (off : Byte) (n : Nat) (s : State) :
    (∃ g, hostRead off n s = (readReg s g, s)) ∨ hostRead off n s = (0#32, logBusError s) := by
  unfold hostRead
  split
  · split
    · exact .inr rfl
    · exact .inl ⟨_, rfl⟩
  · exact .inr rfl

/-- Everything a write can do: be the line `WR reg, v` and write that register, or log a bus error. -/
theorem hostWrite_cases (off : Byte) (n : Nat) (v : Word) (s : State) :
    (∃ g, PortEvent.wr off n v = wrLine g v ∧ hostWrite off n v s = writeReg s v g) ∨
      hostWrite off n v s = logBusError s := by
  unfold hostWrite
  split
  · rename_i hok
    split
    · exact .inr rfl
    · rename_i g hg
      refine .inl ⟨g, ?_, rfl⟩
      simp only [accessOk, Bool.and_eq_true, beq_iff_eq] at hok
      have hoff : g.offset = off := by simpa using List.find?_some hg
      rw [wrLine, hok.1, hoff]
  · exact .inr rfl

end Sys2Proof.Machine
end

