-- ==== Sys2Proof/Laws/Predicate.lean ====
section
/-!
SUPPORT. Laws/Predicate.lean: what `xorBits`, and so `parity32`, computes (43_predicate.md R130, R132).
-/

namespace Sys2Proof.Machine

/-- The exclusive or of the low bits is the parity of their number of ones. -/
theorem xorBits_eq_card (x : Word) (k : Nat) :
    xorBits x k = decide (((Finset.range k).filter fun j => x.getLsbD j = true).card % 2 = 1) := by
  induction k with
  | zero => simp [xorBits]
  | succ k ih =>
    rw [xorBits, ih, Finset.range_add_one, Finset.filter_insert]
    cases hb : x.getLsbD k
    · simp
    · rw [if_pos rfl, Finset.card_insert_of_notMem (by simp)]
      generalize ((Finset.range k).filter fun j => x.getLsbD j = true).card = c
      rcases Nat.mod_two_eq_zero_or_one c with h | h <;> simp [h, Nat.add_mod]

/-- The exclusive or of the low bits is additive. -/
theorem xorBits_xor (x y : Word) (k : Nat) : xorBits (x ^^^ y) k = Bool.xor (xorBits x k) (xorBits y k) := by
  induction k with
  | zero => rfl
  | succ k ih =>
    simp only [xorBits, ih, BitVec.getLsbD_xor]
    cases x.getLsbD k <;> cases y.getLsbD k <;> cases xorBits x k <;> cases xorBits y k <;> rfl

/-- A single set bit below `k` counts once. -/
theorem xorBits_bit (j k : Nat) (hj : j < 32) : xorBits (Word.bit j) k = decide (j < k) := by
  induction k with
  | zero => simp [xorBits]
  | succ k ih =>
    have hbit : (Word.bit j).getLsbD k = decide (k = j) := by
      rw [Word.bit, BitVec.getLsbD_shiftLeft]
      by_cases h : k = j
      · subst h; simp [hj]
      · by_cases hlt : k < j
        · simp [hlt, h]
        · have : k - j ≠ 0 := by omega
          simp [h, BitVec.getLsbD_one, this]
    rw [xorBits, ih, hbit]
    by_cases h : k = j
    · subst h; simp
    · have : (j < k + 1) ↔ (j < k) := by omega
      simp [h, this]

end Sys2Proof.Machine
end

