-- ==== Sys2Proof/Laws/Step.lean ====
section
/-!
SUPPORT. Laws/Step.lean: everything a step can do, and the step in each of its cases.
-/

namespace Sys2Proof.Machine

theorem step_idle {s : State} (h : s.pending = []) : step s = .next s := by
  simp [step, h]

theorem step_access {s : State} {ev : PortEvent} {rest : List PortEvent} (h : s.pending = ev :: rest)
    (hc : commandIssued ev = none) : step s = .next (portEffect ev (setPending rest s)) := by
  simp [step, h, hc]

theorem step_legal {s : State} {w : Word} {i : Instr} {rest : List PortEvent} (h : s.pending = commandWrite w :: rest)
    (hd : decodeWord w = .ok i) : step s = exec i (setPending rest s) := by
  simp [step, h, hd]

theorem step_illegal {s : State} {w : Word} {x : DecodeError} {rest : List PortEvent}
    (h : s.pending = commandWrite w :: rest) (hd : decodeWord w = .error x) :
    step s = .next (illegalCommand (setPending rest s)) := by
  simp [step, h, hd]

/-- Everything a step can do. -/
theorem step_cases {s t : State} (h : step s = .next t) :
    (s.pending = [] ∧ t = s) ∨
      (∃ ev rest, s.pending = ev :: rest ∧ commandIssued ev = none ∧ t = portEffect ev (setPending rest s)) ∨
      (∃ w rest i, s.pending = commandWrite w :: rest ∧ decodeWord w = .ok i ∧
        exec i (setPending rest s) = .next t) ∨
      (∃ w rest x, s.pending = commandWrite w :: rest ∧ decodeWord w = .error x ∧
        t = illegalCommand (setPending rest s)) := by
  rcases hp : s.pending with _ | ⟨ev, rest⟩
  · rw [step_idle hp] at h
    injection h with h
    exact .inl ⟨rfl, h.symm⟩
  · rcases hc : commandIssued ev with _ | w
    · rw [step_access hp hc] at h
      injection h with h
      exact .inr (.inl ⟨ev, rest, rfl, hc, h.symm⟩)
    · rw [(commandIssued_eq_some_iff ev w).mp hc] at hp ⊢
      rcases hd : decodeWord w with x | i
      · rw [step_illegal hp hd] at h
        injection h with h
        exact .inr (.inr (.inr ⟨w, rest, x, rfl, hd, h.symm⟩))
      · rw [step_legal hp hd] at h
        exact .inr (.inr (.inl ⟨w, rest, i, rfl, hd, h⟩))

end Sys2Proof.Machine
end

