-- ==== Sys2Proof/Laws/Run.lean ====
section
/-!
SUPPORT. Laws/Run.lean: runs step by step, so that no proof unfolds the host's `run` (70_reset_and_hazards.md R225).
-/

namespace Sys2Proof.Machine

open Sys2Proof.Safety

@[simp] theorem run_zero (s : State) : core.run 0 s = .next s := rfl

/-- A run goes on from the state its first step answers. -/
theorem run_succ {s t : State} (h : step s = .next t) (k : Nat) : core.run (k + 1) s = core.run k t := by
  have hc : core.step s = .next t := h
  simp only [Host.Core.run, hc]

@[simp] theorem logBitsKept_zero (s : State) : logBitsKept 0 s = true := rfl

/-- The log is kept over a run when it is kept by the first step and from there on. -/
theorem logBitsKept_succ {s t : State} (h : step s = .next t) (k : Nat) :
    logBitsKept (k + 1) s = (s.errlog &&& ~~~t.errlog == 0#32 && logBitsKept k t) := by
  simp only [logBitsKept, h]

/-- With no access pending a run stays where it is. -/
theorem run_idle {s : State} (h : s.pending = []) (k : Nat) : core.run k s = .next s := by
  induction k with
  | zero => rfl
  | succ k ih => rw [run_succ (step_idle h), ih]

end Sys2Proof.Machine
end

