-- ==== Sys2Proof/Tests/Slice0.lean ====
section
/-!
SUPPORT. Tests/Slice0.lean: the model's own tests. Expected values come from the spec (95_test_vectors.md and the examples of
the rules), words are written out bit by bit from 30_encoding.md R60 and R61. The second half names, for every obligation
with hypotheses, a concrete state that meets them, clause by clause.
-/

namespace Sys2Proof.Tests

-- one test after the other: elaborated side by side, so many small kernel evaluations take a thread each
set_option Elab.async false

open Sys2Proof.Machine Sys2Proof.Safety

/-! ## Helpers -/

/-- What `f` reads in the next state, if there is one. -/
def readNext {α : Type} (o : Result) (f : State → α) : Option α :=
  match o with
  | .next t => some (f t)
  | .fault _ => none
  | .refused _ => none

theorem next_of_readNext {α : Type} {o : Result} {f : State → α} {v : α} (h : readNext o f = some v) :
    ∃ t, o = .next t ∧ f t = v := by
  cases o with
  | next t => exact ⟨t, rfl, by simpa [readNext] using h⟩
  | fault r => simp [readNext] at h
  | refused r => simp [readNext] at h

/-- The outcome word and the log of a state. -/
def statusLog (s : State) : Word × Word := (statusWord s, s.errlog)

/-- From reset with `A`, `B`, `M` written. -/
def withOperands (a b m : Word) : State := { State.reset with a := a, b := b, m := m }

/-- From reset with a trapdoor written (`E = 17`). -/
def withTrapdoor (p q : Word) : State := { State.reset with p := p, q := q }

/-- The key K1a of 95_test_vectors.md: `LDKEY.a 7, 11`. -/
def k1a : State :=
  { State.reset with
    p := 7#32, q := 11#32, n := 77#32, phi := 60#32, crtC := 22#32, crtD := 56#32, keyv := true, done := true }

/-- The key K1b of 95_test_vectors.md: `LDKEY.b 7, 11, 17`. -/
def k1b : State := { k1a with dexp := 53#32, var := .b }

/-- A key with a codeword written by the host. -/
def withCodeword (k : State) (x p : Word) : State := { k with cwX := x, cwP := p, cwvx := true, cwvp := true }

/-- From reset with one access pending. -/
def pendingOne (ev : PortEvent) : State := { State.reset with pending := [ev] }

/-! ## WellFormed: an ill-formed term for each check, which the check refuses -/

theorem test_wellFormed_refuses_zero_field :
    CommandFields.zeroOk ⟨1#23, false, 0x00#8⟩ = false ∧ CommandFields.wellFormed ⟨1#23, false, 0x00#8⟩ = false := by decide

theorem test_wellFormed_refuses_unassigned_op :
    CommandFields.opOk ⟨0#23, false, 0x05#8⟩ = false ∧ CommandFields.wellFormed ⟨0#23, false, 0x05#8⟩ = false := by decide

theorem test_wellFormed_refuses_variant_bit :
    CommandFields.varOk ⟨0#23, true, 0x7F#8⟩ = false ∧ CommandFields.wellFormed ⟨0#23, true, 0x7F#8⟩ = false := by decide

theorem test_wellFormed_accepts_keyloadB : CommandFields.wellFormed ⟨0#23, true, 0x08#8⟩ = true := by decide

/-! ## Decoding: `ZERO` (23 bits), `VAR`, `OP` (8 bits), written out from 30_encoding.md R60 and R61 -/

theorem test_decode_nop : decodeWord 0b00000000000000000000000_0_00000000#32 = .ok .nop := by decide
theorem test_decode_modpow : decodeWord 0b00000000000000000000000_0_00000001#32 = .ok .modpow := by decide
theorem test_decode_modinv : decodeWord 0b00000000000000000000000_0_00000010#32 = .ok .modinv := by decide
theorem test_decode_qrtest : decodeWord 0b00000000000000000000000_0_00000011#32 = .ok .qrtest := by decide
theorem test_decode_pred : decodeWord 0b00000000000000000000000_0_00000100#32 = .ok .pred := by decide
theorem test_decode_keyloadA : decodeWord 0b00000000000000000000000_0_00001000#32 = .ok .keyloadA := by decide
theorem test_decode_keyloadB : decodeWord 0b00000000000000000000000_1_00001000#32 = .ok .keyloadB := by decide
theorem test_decode_pfwd : decodeWord 0b00000000000000000000000_0_00010000#32 = .ok .pfwd := by decide
theorem test_decode_pinv : decodeWord 0b00000000000000000000000_0_00010001#32 = .ok .pinv := by decide
theorem test_decode_encode : decodeWord 0b00000000000000000000000_0_00100000#32 = .ok .encode := by decide
theorem test_decode_decode : decodeWord 0b00000000000000000000000_0_00100001#32 = .ok .decode := by decide
theorem test_decode_sreset : decodeWord 0b00000000000000000000000_0_01111111#32 = .ok .sreset := by decide

/-- Why a word is refused (30_encoding.md R64), at the edges of the map. -/
theorem test_decode_refuses_by_name :
    decodeWord 0x00000200#32 = .error .zeroField ∧ decodeWord 0x80000000#32 = .error .zeroField ∧
      decodeWord 0x0000007E#32 = .error .unassignedOp ∧ decodeWord 0x00000080#32 = .error .unassignedOp ∧
      decodeWord 0x00000109#32 = .error .unassignedOp ∧ decodeWord 0x00000100#32 = .error .variantBit ∧
      decodeWord 0x0000017F#32 = .error .variantBit := by decide

/-- The encoder writes the words of R61. -/
theorem test_encode_words :
    encode .nop = 0x00000000#32 ∧ encode .keyloadA = 0x00000008#32 ∧ encode .keyloadB = 0x00000108#32 ∧
      encode .decode = 0x00000021#32 ∧ encode .sreset = 0x0000007F#32 := by decide

/-! ## The commands (95_test_vectors.md sections 2.1 to 2.8) -/

/-- Section 2.8: a `NOP` clears `ERRCODE` and not the log (45_system.md R160's example). -/
theorem test_nop_clears_errcode_only :
    readNext (exec .nop { State.reset with errcode := 8#8, errlog := 0x80#32, done := true }) statusLog
      = some (0x00000001#32, 0x00000080#32) := by decide

/-- Section 2.1: 4^13 mod 497 = 445. -/
theorem test_modpow_example :
    readNext (exec .modpow (withOperands 4#32 13#32 497#32)) (·.r) = some 445#32 := by decide +kernel

/-- Section 2.1: `(-1)^2`, whose product needs 64 bits; and all ones. -/
theorem test_modpow_wide_product :
    readNext (exec .modpow (withOperands 0xFFFFFFFE#32 2#32 0xFFFFFFFF#32)) (·.r) = some 1#32 ∧
      readNext (exec .modpow (withOperands 0xFFFFFFFF#32 0xFFFFFFFF#32 0xFFFFFFFF#32)) (·.r) = some 0#32 := by
  decide +kernel

/-- Section 2.2: Euclid ends on a negative coefficient, corrected by adding `M`. -/
theorem test_modinv_negative_coefficient :
    readNext (exec .modinv (withOperands 17#32 0#32 3120#32)) (·.r) = some 0x00000AC1#32 := by decide +kernel

/-- Section 2.2: `NotInvertible`, and `ZeroModulus` before it. -/
theorem test_modinv_errors :
    readNext (exec .modinv (withOperands 6#32 0#32 9#32)) statusLog = some (0x00000803#32, 0x00000080#32) ∧
      readNext (exec .modinv (withOperands 0#32 0#32 0#32)) statusLog = some (0x00000703#32, 0x00000040#32) := by
  decide +kernel

/-- Section 2.4: 4 is a square under K1a, 76 is not. -/
theorem test_qrtest_squares :
    readNext (exec .qrtest { k1a with a := 4#32 }) statusWord = some 0x0000000D#32 ∧
      readNext (exec .qrtest { k1a with a := 76#32 }) statusWord = some 0x00000009#32 := by decide +kernel

/-- Section 2.4: `QRTEST` under a variant (b) key clears `FLAG`. -/
theorem test_qrtest_variant_b :
    readNext (exec .qrtest { k1b with flag := true }) statusLog = some (0x0000061B#32, 0x00000020#32) := by
  decide +kernel

/-- Section 2.5: bit 31 counts; 13 ones. -/
theorem test_pred_parity :
    readNext (exec .pred (withOperands 0x80000000#32 0#32 0#32)) (·.flag) = some true ∧
      readNext (exec .pred (withOperands 0x12345678#32 0#32 0#32)) (·.flag) = some true ∧
      readNext (exec .pred (withOperands 0x00010001#32 0#32 0#32)) (·.flag) = some false := by decide +kernel

/-- Section 2.3: K1a. -/
theorem test_keyloadA_example :
    readNext (exec .keyloadA (withTrapdoor 7#32 11#32)) derivedKey = some ⟨77#32, 60#32, 22#32, 56#32, 0#32⟩ := by
  decide +kernel

/-- Section 2.3: `P = Q` is rejected and the old key is gone. -/
theorem test_keyloadA_rejects :
    readNext (exec .keyloadA { k1a with q := 7#32 }) (fun t => (derivedKey t, statusLog t))
      = some (⟨0#32, 0#32, 0#32, 0#32, 0#32⟩, 0x00000103#32, 0x00000001#32) := by decide +kernel

/-- Section 2.3: K1b, the example of 41_trapdoor_key.md R101. -/
theorem test_keyloadB_example :
    readNext (exec .keyloadB (withTrapdoor 7#32 11#32)) (fun t => (derivedKey t, statusWord t))
      = some (⟨77#32, 60#32, 22#32, 56#32, 53#32⟩, 0x00000019#32) := by decide +kernel

/-- Section 2.3: a modulus close to `2^32`. -/
theorem test_keyloadB_large :
    readNext (exec .keyloadB (withTrapdoor 65521#32 65537#32)) derivedKey
      = some ⟨0xFFF1FFF1#32, 0xFFF00000#32, 0xEFF2EFF2#32, 0x0FFF1000#32, 0x7870F0F1#32⟩ := by decide +kernel

/-- 42_permutation.md R111: `PFWD(100)` under K1a reduces first, `PFWD(2)` under K1b. -/
theorem test_pfwd_examples :
    readNext (exec .pfwd { k1a with a := 100#32 }) (·.r) = some 67#32 ∧
      readNext (exec .pfwd { k1b with a := 2#32 }) (·.r) = some 18#32 := by decide +kernel

/-- 42_permutation.md R114: the candidates of 16 are 4, 18, 59, 73; 4 is answered. -/
theorem test_pinv_candidates :
    candidates k1a 16#32 = [4#32, 18#32, 59#32, 73#32] ∧
      readNext (exec .pinv { k1a with a := 16#32 }) (·.r) = some 4#32 := by decide +kernel

/-- 42_permutation.md R114: 2 has no root. Section 2.4: `PINV(18) = 2` under K1b. -/
theorem test_pinv_failure_and_variant_b :
    readNext (exec .pinv { k1a with a := 2#32 }) statusLog = some (0x0000030B#32, 0x00000004#32) ∧
      readNext (exec .pinv { k1b with a := 18#32 }) (·.r) = some 2#32 := by decide +kernel

/-- Section 2.6: seed 5 under K1b gives `0000003B 11111111`. -/
theorem test_encode_example :
    readNext (exec .encode { k1b with x0 := 5#32 }) (fun t => (t.cwX, t.cwP, t.stepReg, statusWord t))
      = some (0x3B#32, 0x11111111#32, 32#32, 0x00000079#32) := by decide +kernel

/-- Section 2.6: a seed that is no square, under K1a. -/
theorem test_encode_variant_a :
    readNext (exec .encode { k1a with x0 := 2#32 }) (fun t => (t.cwX, t.cwP)) = some (0x19#32, 0xF7777777#32) := by
  decide +kernel

/-- Section 2.7: the genuine block of seed 5, and the same block with bit 0 of its p field flipped. -/
theorem test_decode_member_and_rejected :
    readNext (exec .decode (withCodeword k1b 0x3B#32 0x11111111#32)) (fun t => (t.stepReg, t.cur, statusWord t))
        = some (32#32, 0x3B#32, 0x0000001D#32) ∧
      readNext (exec .decode (withCodeword k1b 0x3B#32 0x11111110#32)) (fun t => (t.stepReg, t.cur, statusWord t))
        = some (0#32, 0x3B#32, 0x00000019#32) := by decide +kernel

/-- Section 2.7: check 0 passes and 2 has no root under K1a. -/
theorem test_decode_inversion_failed :
    readNext (exec .decode (withCodeword k1a 2#32 1#32)) (fun t => (t.stepReg, t.cur, statusLog t))
      = some (1#32, 2#32, 0x0000030B#32, 0x00000004#32) := by decide +kernel

/-- 45_system.md R161: after `SRESET`, `STATUS` reads 0, `E` 17, `P` 0. -/
theorem test_sreset :
    readNext (exec .sreset { k1b with errlog := 0x1FF#32 }) (fun t => (statusLog t, readReg t .e, readReg t .p))
      = some ((0#32, 0#32), 17#32, 0#32) := by decide +kernel

/-! ## The port -/

/-- 20_memory.md R53: after reset `RD E` returns 17; a narrow read returns 0 and logs a bus error. -/
theorem test_read_accesses :
    readNext (step (pendingOne (rdLine .e))) (fun t => (t.returned, t.errlog)) = some ([17#32], 0#32) ∧
      readNext (step (pendingOne (.rd 0x28#8 1))) (fun t => (t.returned, t.errlog)) = some ([0#32], 0x100#32) := by
  decide +kernel

/-- 20_memory.md R41: `N`, `PHI`, `CRT_C`, `CRT_D` of K1a read at 0x2C to 0x38. -/
theorem test_read_key_registers :
    [0x2C#8, 0x30#8, 0x34#8, 0x38#8].map (fun off => readNext (step { k1a with pending := [.rd off 4] }) (·.returned))
      = [some [77#32], some [60#32], some [22#32], some [56#32]] := by decide +kernel

/-- Section 2.3, sequence, step 2: writing `E` its own value ends the key and keeps `VAR`. -/
theorem test_write_e_invalidates :
    readNext (step { k1b with pending := [wrLine .e 17#32] }) (fun t => (statusWord t, t.n, t.dexp))
      = some (0x00000011#32, 0#32, 0#32) := by decide +kernel

/-- Section 2.8: a word that resembles `SRESET` is an illegal command. -/
theorem test_illegal_word :
    readNext (step (pendingOne (commandWrite 0x0000017F#32))) statusLog = some (0x00000503#32, 0x00000010#32) := by
  decide +kernel

/-- `withFetchWord` puts the command where the next step runs it. -/
theorem test_withFetchWord :
    readNext (step (State.withFetchWord { k1b with a := 2#32 } 32 0x10)) (·.r) = some 18#32 := by decide +kernel

/-! ## The boundary (95_test_vectors.md section 1; 20_memory.md R47's example) -/

theorem test_codeword_bytes :
    codewordBytes 0x86880B77#32 0xD2FC7CA2#32
      = [0x86#8, 0x88#8, 0x0B#8, 0x77#8, 0xD2#8, 0xFC#8, 0x7C#8, 0xA2#8] := by decide

theorem test_avalancheHash : avalancheHash 0#32 = 0x67B2109D#32 ∧ avalancheHash 66#32 = 0x20F9352F#32 := by decide

theorem test_symmetric_scenario :
    symmetricMode [0x48#8, 0x45#8, 0x4C#8, 0x4C#8, 0x4F#8] [0x57#8, 0x4F#8, 0x52#8, 0x4C#8, 0x44#8] [0x58#8, 0x4F#8]
      = some ([0x1F#8, 0x0A#8, 0x1E#8, 0x00#8, 0x0B#8], [0x47#8, 0x45#8, 0x3E#8, 0x20#8, 0x2B#8]) := by decide

/-! ## Witnesses: a concrete state for every obligation with hypotheses -/

theorem witness_keyConsistent : KeyConsistent k1a ∧ KeyConsistent k1b ∧ KeyConsistent State.reset := by decide +kernel

theorem witness_primeKey : PrimeKey k1a ∧ PrimeKey k1b :=
  ⟨⟨rfl, witness_keyConsistent.1, show Nat.Prime 7 by norm_num, show Nat.Prime 11 by norm_num⟩,
    ⟨rfl, witness_keyConsistent.2.1, show Nat.Prime 7 by norm_num, show Nat.Prime 11 by norm_num⟩⟩

theorem witness_ResetGivesEveryRegisterItsValue : Instr.encode ∈ [Instr.qrtest, .pfwd, .pinv, .encode, .decode] := by decide

theorem witness_SresetAndResetInputGiveTheResetState :
    (pendingOne .resetInput).pending = PortEvent.resetInput :: [] ∧
      (pendingOne (commandWrite 0x17F#32)).pending = commandWrite 0x0000017F#32 :: [] := ⟨rfl, rfl⟩

theorem witness_DecodeAndEncodeAgree :
    Instr.sreset.wellFormed = true ∧ decodeWord 0x00000108#32 = .ok Instr.keyloadB := by decide

theorem witness_OtherWordsRaiseIllegalCommand :
    (pendingOne (commandWrite 0x109#32)).pending = commandWrite 0x109#32 :: [] ∧ 0x109#32 ∉ legalWords := by decide

theorem witness_StepRunsTheDecodedCommand :
    (pendingOne (commandWrite 0x7F#32)).pending = commandWrite 0x7F#32 :: [] ∧
      decodeWord 0x7F#32 = .ok .sreset ∧ decodeTableWord 32 0x108 = some .keyloadB := by decide

/-- The first and the last register, `CMD`, and each reason for a refused read at its edge. -/
theorem witness_HostReadReturnsTheRegister :
    (pendingOne (.rd 0x50#8 4)).pending = PortEvent.rd 0x50#8 4 :: [] ∧ 0x50#8 = Reg.offset .step ∧
      0x00#8 = Reg.offset .id ∧ (2 ≠ 4 ∧ (0x51#8).toNat % 4 ≠ 0 ∧ 0x54 ≤ (0x54#8).toNat) := by decide

theorem witness_RefusedWritesOnlyLogBusError :
    (pendingOne (.wr 0x54#8 4 1#32)).pending = PortEvent.wr 0x54#8 4 1#32 :: [] ∧ 0x54 ≤ (0x54#8).toNat ∧ 8 ≠ 4 ∧
      (0x53#8).toNat % 4 ≠ 0 ∧
      0x50#8 ∈ [0x00#8, 0x08#8, 0x1C#8, 0x2C#8, 0x30#8, 0x34#8, 0x38#8, 0x3C#8, 0x4C#8, 0x50#8] := by decide

/-- A state for each offset the clauses name; a legal word for the command clause; a read-only and a reserved offset. -/
theorem witness_HostWriteByRegisterClass :
    (∀ off : Byte, (pendingOne (.wr off 4 1#32)).pending = PortEvent.wr off 4 1#32 :: []) ∧
      decodeWord 1#32 = .ok .modpow ∧ 5#32 ∉ legalWords ∧ Reg.access <$> regAt 0x50#8 = some .ro ∧ regAt 0xFC#8 = none ∧
      (0xFC#8).toNat % 4 = 0 :=
  ⟨fun _ => rfl, by decide, by decide, by decide, by decide, by decide⟩

theorem witness_ModpowWritesThePower :
    (withOperands 4#32 13#32 1#32).m ≠ 0#32 ∧ (withOperands 4#32 13#32 0#32).m = 0#32 := by decide

theorem witness_ModinvWritesTheInverse :
    ((withOperands 17#32 0#32 60#32).m ≠ 0#32 ∧
        Nat.Coprime (withOperands 17#32 0#32 60#32).a.toNat (withOperands 17#32 0#32 60#32).m.toNat) ∧
      ((withOperands 0#32 0#32 2#32).m ≠ 0#32 ∧
        ¬ Nat.Coprime (withOperands 0#32 0#32 2#32).a.toNat (withOperands 0#32 0#32 2#32).m.toNat) ∧
      (withOperands 1#32 0#32 0#32).m = 0#32 := by decide +kernel

theorem witness_PredicateIsAdditive :
    (k1a.a = State.reset.a ∧ (∃ t, exec .pred k1a = .next t) ∧ ∃ t, exec .pred State.reset = .next t) ∧ 31 < 32 :=
  ⟨⟨rfl, ⟨_, rfl⟩, ⟨_, rfl⟩⟩, by decide⟩

/-- Accepted and rejected trapdoors of 95_test_vectors.md section 2.3. -/
theorem witness_KeyloadDerivesOrRejects :
    KeyAcceptable .a 3#32 7#32 17#32 ∧ KeyAcceptable .b 2#32 3#32 17#32 ∧ ¬ KeyAcceptable .a 7#32 13#32 17#32 ∧
      ¬ KeyAcceptable .b 7#32 11#32 0#32 ∧
      (Instr.keyloadA ∈ [Instr.keyloadA, .keyloadB] ∧
        ∃ t, exec .keyloadA (withTrapdoor 7#32 11#32) = .next t ∧ t.errcode = 0#8) := by
  refine ⟨?_, ?_, ?_, ?_, by decide, next_of_readNext (f := (·.errcode)) (by decide +kernel)⟩ <;>
    (unfold KeyAcceptable; decide +kernel)

theorem witness_DerivedConstantsHaveTheirProperties :
    Instr.keyloadB ∈ [Instr.keyloadA, .keyloadB] ∧
      ∃ t, exec .keyloadB (withTrapdoor 7#32 11#32) = .next t ∧ t.errcode = 0#8 :=
  ⟨by decide, next_of_readNext (f := (·.errcode)) (by decide +kernel)⟩

/-- A `KEYLOAD.a` pending over a trapdoor it accepts, and a key user without a key. -/
theorem witness_NoKeyUntilAKeyloadSucceeds :
    ((withTrapdoor 7#32 11#32).keyv = false ∧
        ∃ t, step { withTrapdoor 7#32 11#32 with pending := [cmdLine .keyloadA] } = .next t ∧ t.keyv = true) ∧
      (Instr.decode ∈ [Instr.qrtest, .pfwd, .pinv, .encode, .decode] ∧ State.reset.keyv = false) :=
  ⟨⟨rfl, next_of_readNext (f := (·.keyv)) (by decide +kernel)⟩, by decide, rfl⟩

theorem witness_KeyPersists :
    ((∃ t, exec .decode k1b = .next t) ∧ Instr.decode ∉ [Instr.keyloadA, .keyloadB, .sreset]) ∧
      ∃ s t, step s = .next t ∧ s.pending = [wrLine .a 1#32] ∧
        (∀ g v rest, g ∈ [Reg.p, .q, .e] → s.pending ≠ wrLine g v :: rest) ∧
        (∀ i rest, i ∈ [Instr.keyloadA, .keyloadB, .sreset] → s.pending ≠ cmdLine i :: rest) ∧
        (∀ rest, s.pending ≠ PortEvent.resetInput :: rest) := by
  refine ⟨⟨⟨_, rfl⟩, by decide⟩, { k1b with pending := [wrLine .a 1#32] }, _, rfl, rfl, ?_, ?_, ?_⟩
  · intro g v rest hg
    fin_cases hg <;> simp [wrLine, Reg.offset]
  · intro i rest _
    simp [wrLine, cmdLine, commandWrite, Reg.offset]
  · intro rest
    simp [wrLine]

theorem witness_KeyIsInvalidatedAsStated :
    (Reg.e ∈ [Reg.p, .q, .e] ∧ (pendingOne (wrLine .e 17#32)).pending = wrLine .e 17#32 :: []) ∧
      (Instr.keyloadA ∈ [Instr.keyloadA, .keyloadB] ∧
        ∃ t, exec .keyloadA (withTrapdoor 7#32 7#32) = .next t ∧ t.errcode = 1#8) ∧
      (∃ t, exec .sreset k1a = .next t) ∧
      ((pendingOne .resetInput).pending = PortEvent.resetInput :: [] ∧ ∃ t, step (pendingOne .resetInput) = .next t) ∧
      (Instr.decode ∈ [Instr.pfwd, .pinv, .qrtest, .encode, .decode] ∧ State.reset.keyv = false) ∧
      (KeyConsistent k1b ∧ ∃ t, step k1b = .next t) :=
  ⟨⟨by decide, rfl⟩, ⟨by decide, next_of_readNext (f := (·.errcode)) (by decide +kernel)⟩, ⟨_, rfl⟩, ⟨rfl, _, rfl⟩,
    ⟨by decide, rfl⟩, witness_keyConsistent.2.1, _, rfl⟩

theorem witness_ErrorLogIsSticky :
    (∃ s t, step s = .next t ∧ s.pending = [rdLine .errlog] ∧ (∀ v rest, s.pending ≠ wrLine .errlog v :: rest) ∧
        (∀ rest, s.pending ≠ cmdLine .sreset :: rest) ∧ ∀ rest, s.pending ≠ PortEvent.resetInput :: rest) ∧
      { State.reset with pending := ackLines 0x10#32 }.pending = ackLines 0x10#32 ++ [] := by
  refine ⟨⟨pendingOne (rdLine .errlog), _, rfl, rfl, ?_, ?_, ?_⟩, rfl⟩
  · intro v rest
    simp [pendingOne, rdLine, wrLine]
  · intro rest
    simp [pendingOne, rdLine, cmdLine, commandWrite]
  · intro rest
    simp [pendingOne, rdLine]

theorem witness_PfwdAppliesThePermutation :
    (k1a.keyv = true ∧ KeyConsistent k1a ∧ k1a.var = .a) ∧ (k1b.keyv = true ∧ KeyConsistent k1b ∧ k1b.var = .b) ∧
      State.reset.keyv = false :=
  ⟨⟨rfl, witness_keyConsistent.1, rfl⟩, ⟨rfl, witness_keyConsistent.2.1, rfl⟩, rfl⟩

/-- The same two keys serve `PinvRaisesToThePrivateExponent`, `PinvTakesTheFirstValidCandidate` (first clause),
`QrtestChecksBothRoots` and `OperandsAreReducedModuloN`. -/
theorem witness_PinvTakesTheFirstValidCandidate :
    (k1a.keyv = true ∧ KeyConsistent k1a ∧ k1a.var = .a) ∧
      invA k1a 16#32 = some 4#32 ∧ invA k1a 2#32 = none := by decide +kernel

theorem witness_PinvRaisesToThePrivateExponent : k1b.keyv = true ∧ KeyConsistent k1b ∧ k1b.var = .b := by decide +kernel

theorem witness_QrtestChecksBothRoots :
    (k1a.keyv = true ∧ KeyConsistent k1a ∧ k1a.var = .a) ∧ (k1b.keyv = false ∨ k1b.var = .b) := by decide +kernel

theorem witness_QrtestDecidesSquares : PrimeKey k1a ∧ k1a.var = .a := ⟨witness_primeKey.1, rfl⟩

theorem witness_CandidatesAgreeWithTheResidueTest :
    (PrimeKey k1a ∧ k1a.var = .a) ∧ qr k1a 16#32 = true ∧ qr k1a 2#32 = false :=
  ⟨⟨witness_primeKey.1, rfl⟩, by decide +kernel, by decide +kernel⟩

theorem witness_RoundTripUnderVariantB : PrimeKey k1b ∧ k1b.var = .b ∧ (76#32).toNat < k1b.n.toNat :=
  ⟨witness_primeKey.2, rfl, by decide⟩

theorem witness_RoundTripUnderVariantA : PrimeKey k1a ∧ k1a.var = .a ∧ InDomain k1a 71#32 ∧ ¬ InDomain k1a 2#32 :=
  ⟨witness_primeKey.1, rfl, by decide +kernel, by decide +kernel⟩

theorem witness_ForwardStepPermutesTheDomain :
    PrimeKey k1a ∧ InDomain k1a 4#32 ∧ PrimeKey k1b ∧ InDomain k1b 76#32 :=
  ⟨witness_primeKey.1, by decide +kernel, witness_primeKey.2, by decide +kernel⟩

theorem witness_OperandsAreReducedModuloN :
    k1a.keyv = true ∧ KeyConsistent k1a ∧ (93#32).toNat ≡ (16#32).toNat [MOD k1a.n.toNat] :=
  ⟨rfl, witness_keyConsistent.1, by decide⟩

theorem witness_EncodeRecordsTheOrbit : k1a.keyv = true ∧ State.reset.keyv = false := ⟨rfl, rfl⟩

/-- The codeword of zeros runs the whole chain; one block that is rejected at once and one whose first inversion fails. -/
theorem witness_DecodeEndsInOneOfItsOutcomes :
    (∃ (s : State) (c : Nat → Word), s.keyv = true ∧ s.cwvx = true ∧ s.cwvp = true ∧ c 0 = s.cwX ∧
        ∀ i < 32, parity32 (c i) = s.cwP.getLsbD i ∧ inv s (c i) = some (c (i + 1))) ∧
      parity32 0x3B#32 ≠ (withCodeword k1b 0x3B#32 0x11111110#32).cwP.getLsbD 0 ∧
      (parity32 2#32 = (withCodeword k1a 2#32 1#32).cwP.getLsbD 0 ∧ inv (withCodeword k1a 2#32 1#32) 2#32 = none) ∧
      (State.reset.keyv = false ∧ k1a.keyv = true ∧ k1a.cwvx = false) ∧ k1b.var = .b := by
  refine ⟨⟨withCodeword k1b 0#32 0#32, fun _ => 0#32, rfl, rfl, rfl, rfl, fun i hi => ⟨?_, ?_⟩⟩,
    by decide +kernel, by decide +kernel, by decide, rfl⟩
  · show parity32 0#32 = (0#32).getLsbD i
    rw [show parity32 0#32 = false by decide]
    simp
  · show inv (withCodeword k1b 0#32 0#32) 0#32 = some 0#32
    decide +kernel

theorem witness_DecodeConsumesTheCodeword :
    (∃ t, exec .decode (withCodeword k1b 0x3B#32 0x11111111#32) = .next t ∧ t.flag = true) ∧
      (∃ t, exec .decode State.reset = .next t) ∧ ∃ t, exec .decode { k1b with cwvx := true } = .next t :=
  ⟨next_of_readNext (f := (·.flag)) (by decide +kernel), ⟨_, rfl⟩, ⟨_, rfl⟩⟩

theorem witness_EncodedSeedDecodesAsMember : PrimeKey k1a ∧ InDomain k1a { k1a with x0 := 0#32 }.x0 :=
  ⟨witness_primeKey.1, by decide +kernel⟩

/-- The seed 2 is no square under K1a: the decoder comes back to 9, of the other parity. The seed 4 comes back to itself. -/
theorem witness_SeedOutsideTheDomainIsJudgedByParity :
    PrimeKey k1a ∧ (inv k1a (fwd k1a 2#32) = some 9#32 ∧ parity32 9#32 ≠ parity32 2#32) ∧
      inv k1a (fwd k1a 4#32) = some 4#32 :=
  ⟨witness_primeKey.1, by decide +kernel, by decide +kernel⟩

/-- The four clauses: zeros, ones, `N - 1` under K1b, the alias 9 + 77 = 86 under K1a. -/
theorem witness_FixedPointsAndAliasesOfTheDecoder :
    (k1a.keyv = true ∧ KeyConsistent k1a ∧ (withCodeword k1a 1#32 0xFFFFFFFF#32).cwvx = true) ∧
      (KeyConsistent (withCodeword k1b 76#32 0xFFFFFFFF#32) ∧ k1b.e.toNat % 2 = 1 ∧ 76#32 = k1b.n - 1#32 ∧
        0xFFFFFFFF#32 = if parity32 (k1b.n - 1#32) then 0xFFFFFFFF#32 else 0#32) ∧
      (KeyConsistent (withCodeword k1a 9#32 0xEEEEEEEE#32) ∧ (9#32).toNat + k1a.n.toNat < 2 ^ 32 ∧
        parity32 (9#32 + k1a.n) = parity32 9#32) ∧
      (∃ t, exec .decode (withCodeword k1a 9#32 0xEEEEEEEE#32) = .next t ∧ t.flag = true) ∧
      ∃ t, exec .decode (withCodeword k1a 86#32 0xEEEEEEEE#32) = .next t ∧ t.flag = true :=
  ⟨by decide +kernel, by decide +kernel, by decide +kernel, next_of_readNext (f := (·.flag)) (by decide +kernel),
    next_of_readNext (f := (·.flag)) (by decide +kernel)⟩

theorem witness_DecoderAcceptsAtMostOnePredicateField :
    ∃ t, exec .decode { withCodeword k1b 0x3B#32 0#32 with cwP := 0x11111111#32 } = .next t ∧ t.flag = true :=
  next_of_readNext (f := (·.flag)) (by decide +kernel)

theorem witness_KeyUsersRaiseNoKey :
    (Instr.encode ∈ [Instr.pfwd, .pinv, .encode] ∧ State.reset.keyv = false) ∧ (k1b.keyv = false ∨ k1b.var = .b) := by
  decide

theorem witness_FlagIsWrittenAsStated :
    ((∃ t, exec .pfwd State.reset = .next t) ∧ Instr.pfwd ∉ [Instr.pred, .qrtest, .decode, .sreset]) ∧
      (∃ t, exec .pred k1a = .next t) ∧ (∃ t, exec .qrtest { k1a with a := 4#32 } = .next t ∧ t.flag = true) ∧
      (∃ t, exec .decode (withCodeword k1b 0#32 0#32) = .next t ∧ t.flag = true) ∧ (∃ t, exec .sreset k1a = .next t) ∧
      (∃ t, step (pendingOne .resetInput) = .next t) ∧
      (5#32 ∉ legalWords ∧ ∃ t, step (pendingOne (commandWrite 5#32)) = .next t) :=
  ⟨⟨⟨_, rfl⟩, by decide⟩, ⟨_, rfl⟩, next_of_readNext (f := (·.flag)) (by decide +kernel),
    next_of_readNext (f := (·.flag)) (by decide +kernel), ⟨_, rfl⟩, ⟨_, rfl⟩, by decide, _, rfl⟩

theorem witness_FrameOfResultCommands :
    Instr.modpow ∈ [Instr.modpow, .modinv, .pfwd, .pinv] ∧
      (∃ t, exec .modpow (withOperands 4#32 13#32 497#32) = .next t ∧ t.errcode = 0#8) ∧
      (∃ t, exec .modinv (withOperands 6#32 0#32 9#32) = .next t ∧ t.errcode = 8#8) ∧
      (∃ t, exec .pfwd { k1b with a := 2#32 } = .next t ∧ t.errcode = 0#8) ∧
      ∃ t, exec .pinv { k1a with a := 2#32 } = .next t ∧ t.errcode = 3#8 :=
  ⟨by decide, next_of_readNext (f := (·.errcode)) (by decide +kernel),
    next_of_readNext (f := (·.errcode)) (by decide +kernel), next_of_readNext (f := (·.errcode)) (by decide +kernel),
    next_of_readNext (f := (·.errcode)) (by decide +kernel)⟩

theorem witness_FrameOfFlagCommands :
    Instr.qrtest ∈ [Instr.nop, .pred, .qrtest] ∧ (∃ t, exec .nop k1a = .next t ∧ t.errcode = 0#8) ∧
      ∃ t, exec .qrtest { k1a with a := 4#32 } = .next t ∧ t.errcode = 0#8 :=
  ⟨by decide, next_of_readNext (f := (·.errcode)) (by decide +kernel),
    next_of_readNext (f := (·.errcode)) (by decide +kernel)⟩

theorem witness_FrameOfKeyload :
    Instr.keyloadA ∈ [Instr.keyloadA, .keyloadB] ∧
      (∃ t, exec .keyloadA (withTrapdoor 7#32 7#32) = .next t ∧ t.errcode = 1#8) ∧
      ∃ t, exec .keyloadB (withTrapdoor 7#32 11#32) = .next t ∧ t.errcode = 0#8 :=
  ⟨by decide, next_of_readNext (f := (·.errcode)) (by decide +kernel),
    next_of_readNext (f := (·.errcode)) (by decide +kernel)⟩

theorem witness_FrameOfCodecCommands :
    (∃ t, exec .encode { k1b with x0 := 5#32 } = .next t ∧ t.errcode = 0#8) ∧
      ∃ t, exec .decode (withCodeword k1a 2#32 1#32) = .next t ∧ t.errcode = 3#8 :=
  ⟨next_of_readNext (f := (·.errcode)) (by decide +kernel), next_of_readNext (f := (·.errcode)) (by decide +kernel)⟩

/-- First clause: a command that succeeds; second clause: one that fails, and one that is none of the four. -/
theorem witness_EngineNeverWritesOperands :
    (Instr.pinv ≠ .sreset ∧ ∃ t, exec .pinv { k1a with a := 16#32 } = .next t ∧ t.errcode = 0#8) ∧
      (∃ t, exec .pinv { k1a with a := 2#32 } = .next t ∧ t.errcode = 3#8) ∧
      Instr.encode ∉ [Instr.modpow, .modinv, .pfwd, .pinv] :=
  ⟨⟨by decide, next_of_readNext (f := (·.errcode)) (by decide +kernel)⟩,
    next_of_readNext (f := (·.errcode)) (by decide +kernel), by decide⟩

/-- An error of each kind the clauses tell apart, and a success. -/
theorem witness_ErrorsArePrecise :
    (∃ t, exec .decode k1b = .next t ∧ t.errcode = 4#8) ∧
      (∃ t, exec .keyloadB (withTrapdoor 7#32 7#32) = .next t ∧ t.errcode = 1#8) ∧
      (∃ t, exec .decode (withCodeword k1a 2#32 1#32) = .next t ∧ t.errcode = 3#8) ∧
      ∃ t, exec .pred k1b = .next t ∧ t.errcode = 0#8 :=
  ⟨next_of_readNext (f := (·.errcode)) (by decide +kernel), next_of_readNext (f := (·.errcode)) (by decide +kernel),
    next_of_readNext (f := (·.errcode)) (by decide +kernel), next_of_readNext (f := (·.errcode)) (by decide +kernel)⟩

theorem witness_CommandsCompleteWithTheirOwnCodes :
    Instr.modpow ≠ .sreset ∧ ∃ t, exec .modpow State.reset = .next t ∧ t.errcode = 7#8 :=
  ⟨by decide, next_of_readNext (f := (·.errcode)) (by decide +kernel)⟩

/-- Two states that agree on what the codec reads and differ elsewhere: `CommandsReadOnlyTheirOperands`. -/
theorem witness_CommandsReadOnlyTheirOperands :
    (k1b.n = { k1b with r := 1#32, m := 5#32, flag := true }.n ∧ k1b ≠ { k1b with r := 1#32, m := 5#32, flag := true }) ∧
      (∃ t, exec .encode k1b = .next t ∧ t.errcode = 0#8) ∧
      ∃ t, exec .encode { k1b with r := 1#32, m := 5#32, flag := true } = .next t ∧ t.errcode = 0#8 :=
  ⟨by decide, next_of_readNext (f := (·.errcode)) (by decide +kernel),
    next_of_readNext (f := (·.errcode)) (by decide +kernel)⟩

theorem witness_EveryStepKeepsTheInvariant : ReachableInv k1b ∧ ∃ t, step k1b = .next t :=
  ⟨by decide +kernel, _, rfl⟩

/-- A run that logs nothing is clean; one that logs a bus error and acknowledges it, or resets, ends with `ERRLOG = 0` and is
not clean. -/
theorem witness_CleanRunsNeverLog :
    Clean (pendingOne (rdLine .e)) ∧
      ¬ Clean { State.reset with pending := .rd 0x54#8 4 :: ackLines 0x100#32 } ∧
      ¬ Clean { State.reset with pending := [.rd 0x54#8 4, cmdLine .sreset] } :=
  ⟨⟨next_of_readNext (f := (·.errlog)) (by decide +kernel), by decide +kernel⟩,
    fun h => absurd h.2 (by decide +kernel), fun h => absurd h.2 (by decide +kernel)⟩

/-- A list of bits in whole bytes, for the packing clause. -/
theorem witness_StreamsSplitIntoWholeBlocks : (plaintextBits [0x48#8, 0x45#8]).length % 8 = 0 := by decide

theorem witness_PlaintextBitComesFromStatus :
    ((withCodeword k1a 2#32 1#32).keyv = true ∧ (withCodeword k1a 2#32 1#32).cwvx = true) ∧
      (∃ t, exec .decode (withCodeword k1a 2#32 1#32) = .next t ∧ t.errcode = 3#8) ∧
      ∃ t, exec .decode (withCodeword k1b 0x3B#32 0x11111111#32) = .next t ∧ t.errcode = 0#8 :=
  ⟨⟨rfl, rfl⟩, next_of_readNext (f := (·.errcode)) (by decide +kernel),
    next_of_readNext (f := (·.errcode)) (by decide +kernel)⟩

theorem witness_CodewordStreamOrder : 63 < 64 := by decide

theorem witness_TrialDivisionDecidesPrimality : 4294967295 < 2 ^ 32 := by decide

theorem witness_SymmetricModeOpensBothWays :
    [0x48#8, 0x45#8].length ≤ [0x57#8, 0x4F#8].length ∧ [0x58#8].length ≤ [0x48#8, 0x45#8].length := by decide

end Sys2Proof.Tests
end

section
/-!
SUPPORT. The family of 00_scope.md: a step is one access of the host, which the block takes off the host's list and completes
(R8). The lemmas say what each shared operation does to that list.
-/

namespace Sys2Proof.Machine

/-! ## The issue of a command -/

theorem decodeWord_of_decodeTableWord {nbits w : Nat} {i : Instr} (h : decodeTableWord nbits w = some i) :
    decodeWord (tableWord nbits w) = .ok i := by
  unfold decodeTableWord at h
  split at h
  · rename_i j hj
    rw [hj, Option.some.inj h]
  · cases h

theorem withFetchWord_pending (s : State) (nbits w : Nat) :
    (s.withFetchWord nbits w).pending = commandWrite (tableWord nbits w) :: s.pending := rfl

/-- Taking the command of `withFetchWord` off the list again gives the state itself. -/
theorem setPending_withFetchWord (s : State) (nbits w : Nat) : setPending s.pending (s.withFetchWord nbits w) = s := rfl

/-- Settles O6: both clauses are `step_legal`; the second takes the command of `withFetchWord` off the list again. -/
theorem stepRunsTheDecodedCommand : Obligations.StepRunsTheDecodedCommand := by
  refine ⟨fun s w rest i hp hd => step_legal hp hd, fun s w i hd => ?_⟩
  rw [step_legal (withFetchWord_pending s 32 w) (decodeWord_of_decodeTableWord hd), setPending_withFetchWord]

/-! ## Every command completes and leaves the host's list alone -/

/-- The outcome is a next state, and its list of the host's accesses is that of `s`. -/
def CompletesFrom (s : State) (o : Result) : Prop := ∃ t, o = .next t ∧ t.pending = s.pending

theorem completesFrom_next {s t : State} (h : t.pending = s.pending) : CompletesFrom s (.next t) := ⟨t, rfl, h⟩

theorem completesFrom_withKey {c : Instr} {s : State} {body : Result} (h : CompletesFrom s body) :
    CompletesFrom s (withKey c s body) := by
  rcases hk : s.keyv with _ | _
  · rw [withKey_of_no_key hk]
    exact completesFrom_next (raise_pending ..)
  · rwa [withKey_of_keyv hk]

theorem completesFrom_keyload (c : Instr) (v : Variant) (s : State) : CompletesFrom s (keyload c v s) := by
  unfold keyload
  split <;> exact completesFrom_next rfl

@[simp] theorem decodeCommit_pending (s : State) (d : DecodeEnd) : (decodeCommit s d).pending = s.pending := by
  cases d <;> rfl

theorem completesFrom_exec (i : Instr) (s : State) : CompletesFrom s (exec i s) := by
  cases i with
  | nop | pred | sreset => exact completesFrom_next rfl
  | modpow =>
    rw [exec, execModpow]
    split <;> exact completesFrom_next rfl
  | modinv =>
    rw [exec, execModinv]
    split
    · exact completesFrom_next rfl
    · split <;> exact completesFrom_next rfl
  | keyloadA => exact completesFrom_keyload .keyloadA .a s
  | keyloadB => exact completesFrom_keyload .keyloadB .b s
  | pfwd | encode => exact completesFrom_withKey (completesFrom_next rfl)
  | pinv | qrtest =>
    refine completesFrom_withKey ?_
    split <;> exact completesFrom_next rfl
  | decode =>
    refine completesFrom_withKey ?_
    split
    · exact completesFrom_next (decodeCommit_pending ..)
    · exact completesFrom_next rfl

/-! ## Every access completes and uses up no other access -/

@[simp] theorem writeReg_pending (s : State) (v : Word) (g : Reg) : (writeReg s v g).pending = s.pending := by
  cases g <;> rfl

@[simp] theorem hostRead_pending (off : Byte) (n : Nat) (s : State) : (hostRead off n s).2.pending = s.pending := by
  rcases hostRead_cases off n s with ⟨g, h⟩ | h <;> simp [h]

@[simp] theorem hostWrite_pending (off : Byte) (n : Nat) (v : Word) (s : State) :
    (hostWrite off n v s).pending = s.pending := by
  rcases hostWrite_cases off n v s with ⟨g, -, h⟩ | h <;> simp [h]

@[simp] theorem portEffect_pending (ev : PortEvent) (s : State) : (portEffect ev s).pending = s.pending := by
  cases ev with
  | rd off n => exact hostRead_pending off n s
  | wr off n v => exact hostWrite_pending off n v s
  | resetInput => rfl

/-- The next access, whether it issues a command or not, completes and is the one used up. -/
theorem completesFrom_step {s : State} {ev : PortEvent} {rest : List PortEvent} (hp : s.pending = ev :: rest) :
    CompletesFrom (setPending rest s) (step s) := by
  rcases hc : commandIssued ev with _ | w
  · rw [step_access hp hc]
    exact completesFrom_next (portEffect_pending ..)
  · rw [(commandIssued_eq_some_iff ev w).mp hc] at hp
    rcases hd : decodeWord w with x | i
    · rw [step_illegal hp hd]
      exact completesFrom_next (raise_pending ..)
    · rw [step_legal hp hd]
      exact completesFrom_exec i _

/-- Settles O49: the first clause is `completesFrom_exec`, the second by whether an access is pending. -/
theorem everyStepCompletes : Obligations.EveryStepCompletes := by
  refine ⟨completesFrom_exec, fun s => ?_⟩
  rcases hp : s.pending with _ | ⟨ev, rest⟩
  · exact ⟨s, step_idle hp, hp⟩
  · exact completesFrom_step hp

end Sys2Proof.Machine
end

section
/-!
SUPPORT. The family of 10_state.md: what a command can leave of the state (30_encoding.md R63, R69), said once for all commands,
and the induction over the operations a step is made of.
-/

namespace Sys2Proof.Machine

open Sys2Proof.Safety

/-! ## How a command ends -/

/-- The errors a command raises, in the order of their codes (60_exceptions.md R181). -/
def commandErrors : Instr → List ErrorKind
  | .nop | .pred | .sreset => []
  | .modpow => [.zeroModulus]
  | .modinv => [.zeroModulus, .notInvertible]
  | .keyloadA | .keyloadB => [.trapdoorRejected]
  | .pfwd | .qrtest | .encode => [.noKey]
  | .pinv => [.inversionFailed, .noKey]
  | .decode => [.inversionFailed, .lengthMismatch, .noKey]

/-- What a command has written, from `s`, when it completes (`none`) or raises an error: the destinations R63 names, and in
the two cases of R182 what an error leaves. -/
inductive CommandBody (s : State) : Instr → Option ErrorKind → State → Prop
  | nop : CommandBody s .nop none s
  | result {i : Instr} (w : Word) (hi : i ∈ [Instr.modpow, .modinv, .pfwd, .pinv]) :
      CommandBody s i none { s with r := w }
  | flag {i : Instr} (b : Bool) (hi : i ∈ [Instr.pred, .qrtest]) : CommandBody s i none { s with flag := b }
  | keyInstalled {i : Instr} {v : Variant} {k : DerivedKey} (hi : i ∈ [Instr.keyloadA, .keyloadB])
      (hk : deriveKey v s.p s.q s.e = some k) : CommandBody s i none (installKey v k s)
  | keyRejected {i : Instr} (hi : i ∈ [Instr.keyloadA, .keyloadB]) :
      CommandBody s i (some .trapdoorRejected) (invalidateKey s)
  | encoded (c p : Word) : CommandBody s .encode none
      { s with cwX := c, cwP := p, cur := c, stepReg := BitVec.ofNat 32 Config.K, cwvx := true, cwvp := true }
  | decoded (b : Bool) (j : Nat) (c : Word) (hj : j ≤ Config.K) : CommandBody s .decode none
      { s with flag := b, stepReg := BitVec.ofNat 32 j, cur := c, cwvx := false, cwvp := false }
  | inversionFailed (j : Nat) (c : Word) (hj : j ≤ Config.K) : CommandBody s .decode (some .inversionFailed)
      { s with stepReg := BitVec.ofNat 32 j, cur := c, cwvx := false, cwvp := false }
  | refused {i : Instr} {x : ErrorKind}
      (hx : x ∈ commandErrors i ∧ i ∉ [Instr.keyloadA, .keyloadB] ∧ ¬ (i = .decode ∧ x = .inversionFailed)) :
      CommandBody s i (some x) s

/-- The end of a command: step 7 of its life, or `raise` (30_encoding.md R69, 60_exceptions.md R182). -/
def finish (i : Instr) : Option ErrorKind → State → State
  | none, u => complete u
  | some x, u => raise (some i) x u

theorem decodeCommit_body (s : State) (g : Word → Option Word) (w x : Word) :
    ∃ o u, CommandBody s .decode o u ∧
      decodeCommit { s with cwvx := false, cwvp := false } (decodeLoop g w Config.K 0 x) = finish .decode o u := by
  have hbound := decodeLoop_bound g w Config.K 0 x
  rcases hd : decodeLoop g w Config.K 0 x with c | ⟨j, c⟩ | ⟨j, c⟩
  · exact ⟨_, _, .decoded true Config.K c le_rfl, rfl⟩
  · simp only [hd] at hbound
    exact ⟨_, _, .decoded false j c (by omega), rfl⟩
  · simp only [hd] at hbound
    exact ⟨_, _, .inversionFailed (j + 1) c (by omega), rfl⟩

theorem keyload_body {i : Instr} {v : Variant} {s t : State} (hi : i ∈ [Instr.keyloadA, .keyloadB])
    (h : keyload i v s = .next t) : ∃ o u, CommandBody s i o u ∧ t = finish i o u := by
  rcases keyload_cases h with ⟨-, rfl⟩ | ⟨k, hk, rfl⟩
  · exact ⟨_, _, .keyRejected hi, rfl⟩
  · exact ⟨_, _, .keyInstalled hi hk, rfl⟩

/-- Everything a command other than `SRESET` can do. -/
theorem exec_body {i : Instr} {s t : State} (h : exec i s = .next t) (hi : i ≠ .sreset) :
    ∃ o u, CommandBody s i o u ∧ t = finish i o u := by
  cases i with
  | nop => exact ⟨_, _, .nop, execNop_cases h⟩
  | modpow =>
    rcases execModpow_cases h with ⟨-, rfl⟩ | ⟨-, rfl⟩
    · exact ⟨_, _, .refused (by decide), rfl⟩
    · exact ⟨_, _, .result _ (by decide), rfl⟩
  | modinv =>
    rcases execModinv_cases h with ⟨-, rfl⟩ | ⟨-, -, rfl⟩ | ⟨-, u, -, rfl⟩
    · exact ⟨_, _, .refused (by decide), rfl⟩
    · exact ⟨_, _, .refused (by decide), rfl⟩
    · exact ⟨_, _, .result u (by decide), rfl⟩
  | qrtest =>
    rcases execQrtest_cases h with ⟨-, rfl⟩ | ⟨-, -, rfl⟩
    · exact ⟨_, _, .refused (by decide), rfl⟩
    · exact ⟨_, _, .flag _ (by decide), rfl⟩
  | pred => exact ⟨_, _, .flag _ (by decide), execPred_cases h⟩
  | keyloadA => exact keyload_body (v := .a) (by decide) h
  | keyloadB => exact keyload_body (v := .b) (by decide) h
  | pfwd =>
    rcases execPfwd_cases h with ⟨-, rfl⟩ | ⟨-, rfl⟩
    · exact ⟨_, _, .refused (by decide), rfl⟩
    · exact ⟨_, _, .result _ (by decide), rfl⟩
  | pinv =>
    rcases execPinv_cases h with ⟨-, rfl⟩ | ⟨-, -, rfl⟩ | ⟨-, u, -, rfl⟩
    · exact ⟨_, _, .refused (by decide), rfl⟩
    · exact ⟨_, _, .refused (by decide), rfl⟩
    · exact ⟨_, _, .result u (by decide), rfl⟩
  | encode =>
    rcases execEncode_cases h with ⟨-, rfl⟩ | ⟨-, rfl⟩
    · exact ⟨_, _, .refused (by decide), rfl⟩
    · exact ⟨_, _, .encoded _ _, rfl⟩
  | decode =>
    rcases execDecode_cases h with ⟨-, rfl⟩ | ⟨-, -, rfl⟩ | ⟨-, -, rfl⟩
    · exact ⟨_, _, .refused (by decide), rfl⟩
    · exact ⟨_, _, .refused (by decide), rfl⟩
    · exact decodeCommit_body s (inv s) s.cwP s.cwX
  | sreset => exact absurd rfl hi

/-! ## What the end of a command leaves -/

section Finish
variable (i : Instr) (o : Option ErrorKind) (u : State)

@[simp] theorem finish_none : finish i none u = complete u := rfl
@[simp] theorem finish_some (x : ErrorKind) : finish i (some x) u = raise (some i) x u := rfl
@[simp] theorem finish_a : (finish i o u).a = u.a := by cases o <;> rfl
@[simp] theorem finish_b : (finish i o u).b = u.b := by cases o <;> rfl
@[simp] theorem finish_m : (finish i o u).m = u.m := by cases o <;> rfl
@[simp] theorem finish_r : (finish i o u).r = u.r := by cases o <;> rfl
@[simp] theorem finish_done : (finish i o u).done = true := by cases o <;> rfl
@[simp] theorem finish_keyv : (finish i o u).keyv = u.keyv := by cases o <;> rfl
@[simp] theorem finish_var : (finish i o u).var = u.var := by cases o <;> rfl
@[simp] theorem finish_p : (finish i o u).p = u.p := by cases o <;> rfl
@[simp] theorem finish_q : (finish i o u).q = u.q := by cases o <;> rfl
@[simp] theorem finish_e : (finish i o u).e = u.e := by cases o <;> rfl
@[simp] theorem finish_x0 : (finish i o u).x0 = u.x0 := by cases o <;> rfl
@[simp] theorem finish_stepReg : (finish i o u).stepReg = u.stepReg := by cases o <;> rfl
@[simp] theorem finish_derivedKey : derivedKey (finish i o u) = derivedKey u := by cases o <;> rfl

end Finish

theorem commandBody_error {i : Instr} {x : ErrorKind} {s u : State} (h : CommandBody s i (some x) u) :
    x ∈ commandErrors i := by
  cases h with
  | keyRejected hi =>
    obtain rfl | rfl : i = .keyloadA ∨ i = .keyloadB := by simpa using hi
    all_goals exact List.mem_cons_self
  | inversionFailed => exact List.mem_cons_self
  | refused hx => exact hx.1

/-- No command raises code 2 or code 9 (60_exceptions.md R184, R192). -/
theorem commandErrors_ne {i : Instr} : ∀ x ∈ commandErrors i, x ≠ .cycleDetected ∧ x ≠ .busError := by
  cases i <;> decide

/-- A command's body leaves the log to its end. -/
theorem commandBody_errlog {i : Instr} {o : Option ErrorKind} {s u : State} (h : CommandBody s i o u) :
    u.errlog = s.errlog := by
  cases h <;> rfl

/-! ## What is kept by every operation of a step is kept by the step -/

/-- `P` is kept by every operation that an access which issues no command is made of. -/
structure KeptByAccesses (P : State → Prop) : Prop where
  pushReturned : ∀ v s, P s → P (pushReturned v s)
  logBusError : ∀ s, P s → P (logBusError s)
  writeReg : ∀ s v g, P s → P (writeReg s v g)
  resetAll : ∀ s, P (resetAll s)

/-- `P` is kept by every operation that a step is made of. -/
structure KeptByOperations (P : State → Prop) : Prop extends KeptByAccesses P where
  setPending : ∀ evs s, P s → P (setPending evs s)
  illegalCommand : ∀ s, P s → P (illegalCommand s)
  command : ∀ i o s u, CommandBody s i o u → P s → P (finish i o u)

theorem KeptByAccesses.portEffect {P : State → Prop} (hP : KeptByAccesses P) (ev : PortEvent) {s : State} (hs : P s) :
    P (portEffect ev s) := by
  cases ev with
  | rd off n =>
    apply hP.pushReturned
    rcases hostRead_cases off n s with ⟨g, h⟩ | h <;> rw [h]
    · exact hs
    · exact hP.logBusError s hs
  | wr off n v =>
    change P (hostWrite off n v s)
    rcases hostWrite_cases off n v s with ⟨g, -, h⟩ | h <;> rw [h]
    · exact hP.writeReg s v g hs
    · exact hP.logBusError s hs
  | resetInput => exact hP.resetAll s

namespace KeptByOperations

variable {P : State → Prop} (hP : KeptByOperations P)
include hP

theorem exec {i : Instr} {s t : State} (hs : P s) (h : exec i s = .next t) : P t := by
  by_cases hi : i = .sreset
  · subst hi
    exact execSreset_cases h ▸ hP.resetAll s
  · obtain ⟨o, u, hu, rfl⟩ := exec_body h hi
    exact hP.command i o s u hu hs

theorem step {s t : State} (hs : P s) (h : step s = .next t) : P t := by
  rcases step_cases h with ⟨-, rfl⟩ | ⟨ev, rest, -, -, rfl⟩ | ⟨w, rest, i, -, -, h⟩ | ⟨w, rest, x, -, -, rfl⟩
  · exact hs
  · exact hP.portEffect ev (hP.setPending rest s hs)
  · exact hP.exec (hP.setPending rest s hs) h
  · exact hP.illegalCommand _ (hP.setPending rest s hs)

end KeptByOperations

/-! ## The conjuncts of the invariant -/

@[simp] theorem writeReg_done (s : State) (v : Word) (g : Reg) : (writeReg s v g).done = s.done := by cases g <;> rfl
@[simp] theorem writeReg_errcode (s : State) (v : Word) (g : Reg) : (writeReg s v g).errcode = s.errcode := by
  cases g <;> rfl
@[simp] theorem writeReg_stepReg (s : State) (v : Word) (g : Reg) : (writeReg s v g).stepReg = s.stepReg := by
  cases g <;> rfl

@[simp] theorem derivedKey_invalidateKey (s : State) : derivedKey (invalidateKey s) = ⟨0#32, 0#32, 0#32, 0#32, 0#32⟩ := rfl
@[simp] theorem derivedKey_resetAll (s : State) : derivedKey (resetAll s) = ⟨0#32, 0#32, 0#32, 0#32, 0#32⟩ := rfl
@[simp] theorem derivedKey_installKey (v : Variant) (k : DerivedKey) (s : State) : derivedKey (installKey v k s) = k := rfl

theorem keyConsistent_invalidateKey (s : State) : KeyConsistent (invalidateKey s) := by simp [KeyConsistent]

theorem keyConsistent_resetAll (s : State) : KeyConsistent (resetAll s) := by simp [KeyConsistent, State.reset]

theorem keyConsistent_installKey {v : Variant} {k : DerivedKey} {s : State} (h : deriveKey v s.p s.q s.e = some k) :
    KeyConsistent (installKey v k s) := by
  simpa [KeyConsistent] using h

theorem keyConsistent_writeReg {s : State} (hs : KeyConsistent s) (v : Word) (g : Reg) :
    KeyConsistent (writeReg s v g) := by
  cases g with
  | p | q | e => exact keyConsistent_invalidateKey _
  | _ => exact hs

theorem keyConsistent_body {i : Instr} {o : Option ErrorKind} {s u : State} (h : CommandBody s i o u)
    (hs : KeyConsistent s) : KeyConsistent u := by
  cases h with
  | keyInstalled _ hk => exact keyConsistent_installKey hk
  | keyRejected => exact keyConsistent_invalidateKey s
  | _ => exact hs

theorem keyConsistent_kept : KeptByOperations fun s => KeyConsistent s where
  setPending _ _ h := h
  pushReturned _ _ h := h
  logBusError _ h := h
  writeReg _ v g h := keyConsistent_writeReg h v g
  resetAll := keyConsistent_resetAll
  illegalCommand _ h := h
  command i o s u hu h := (keyConsistent_congr (s := u) (by simp) (by simp) (by simp) (by simp) (by simp) (by simp)).mpr
    (keyConsistent_body hu h)

/-- The codes a command or an illegal word can raise (60_exceptions.md R181). -/
theorem errcode_mem_legal {x : ErrorKind} (h : x ≠ .cycleDetected ∧ x ≠ .busError) :
    x.errcode ∈ [0#8, 1#8, 3#8, 4#8, 5#8, 6#8, 7#8, 8#8] := by
  obtain ⟨hc, hb⟩ := h
  cases x with
  | cycleDetected => exact absurd rfl hc
  | busError => exact absurd rfl hb
  | _ => decide

theorem legalErrcode_finish {i : Instr} {o : Option ErrorKind} {s u : State} (h : CommandBody s i o u) :
    LegalErrcode (finish i o u) := by
  cases o with
  | none => exact List.mem_cons_self
  | some x => exact errcode_mem_legal (commandErrors_ne x (commandBody_error h))

theorem legalErrcode_kept : KeptByOperations fun s => LegalErrcode s where
  setPending _ _ h := h
  pushReturned _ _ h := h
  logBusError _ h := h
  writeReg _ _ _ h := by simpa using h
  resetAll _ := List.mem_cons_self
  illegalCommand _ _ := errcode_mem_legal (x := .illegalCommand) (by decide)
  command _ _ _ _ hu _ := legalErrcode_finish hu

/-- No error but `CycleDetected` has its bit among those that stay 0 (10_state.md R14). -/
theorem logBit_legal {x : ErrorKind} (h : x ≠ .cycleDetected) : x.logBit &&& 0xFFFFFE02#32 = 0#32 := by
  cases x with
  | cycleDetected => exact absurd rfl h
  | _ => decide

theorem legalErrlog_or_logBit {w : Word} {x : ErrorKind} (hw : w &&& 0xFFFFFE02#32 = 0#32) (h : x ≠ .cycleDetected) :
    (w ||| x.logBit) &&& 0xFFFFFE02#32 = 0#32 := by
  rw [BitVec.and_or_distrib_right, hw, logBit_legal h]
  decide

theorem legalErrlog_writeReg {s : State} (hs : LegalErrlog s) (v : Word) (g : Reg) : LegalErrlog (writeReg s v g) := by
  cases g with
  | errlog =>
    change s.errlog &&& ~~~v &&& 0xFFFFFE02#32 = 0#32
    rw [BitVec.and_assoc, BitVec.and_comm (~~~v), ← BitVec.and_assoc, hs, BitVec.zero_and]
  | id | status | r | n | phi | crtC | crtD | dexp | cur | step => exact legalErrlog_or_logBit hs (by decide)
  | _ => exact hs

theorem legalErrlog_finish {i : Instr} {o : Option ErrorKind} {s u : State} (h : CommandBody s i o u)
    (hs : LegalErrlog s) : LegalErrlog (finish i o u) := by
  have hu : LegalErrlog u := by rwa [LegalErrlog, commandBody_errlog h]
  cases o with
  | none => exact hu
  | some x => exact legalErrlog_or_logBit hu (commandErrors_ne x (commandBody_error h)).1

theorem legalErrlog_kept : KeptByOperations fun s => LegalErrlog s where
  setPending _ _ h := h
  pushReturned _ _ h := h
  logBusError _ h := legalErrlog_or_logBit h (by decide)
  writeReg _ v g h := legalErrlog_writeReg h v g
  resetAll _ := BitVec.zero_and
  illegalCommand _ h := legalErrlog_or_logBit h (by decide)
  command _ _ _ _ hu h := legalErrlog_finish hu h

theorem step_ofNat_le {j : Nat} (hj : j ≤ Config.K) : (BitVec.ofNat 32 j).toNat ≤ 32 := by
  simp only [Config.K] at hj
  rw [BitVec.toNat_ofNat]
  omega

theorem legalStep_body {i : Instr} {o : Option ErrorKind} {s u : State} (h : CommandBody s i o u) (hs : LegalStep s) :
    LegalStep u := by
  cases h with
  | encoded => exact step_ofNat_le le_rfl
  | decoded _ j _ hj | inversionFailed j _ hj => exact step_ofNat_le hj
  | _ => exact hs

theorem legalStep_kept : KeptByOperations fun s => LegalStep s where
  setPending _ _ h := h
  pushReturned _ _ h := h
  logBusError _ h := h
  writeReg _ _ _ h := by simpa using h
  resetAll _ := Nat.zero_le 32
  illegalCommand _ h := h
  command i o s u hu h := by simpa using legalStep_body hu h

theorem errorNeedsDone_kept : KeptByOperations fun s => ErrorNeedsDone s where
  setPending _ _ h := h
  pushReturned _ _ h := h
  logBusError _ h := h
  writeReg _ _ _ h := by simpa [ErrorNeedsDone] using h
  resetAll _ h := absurd rfl h
  illegalCommand _ _ _ := rfl
  command i o _ u _ _ _ := finish_done i o u

/-- Settles O52, conjunct by conjunct: each is kept by every operation, so by the step. -/
theorem everyStepKeepsTheInvariant : Obligations.EveryStepKeepsTheInvariant := by
  intro s t ⟨hkey, hcode, hlog, hstep, hdone⟩ h
  exact ⟨keyConsistent_kept.step hkey h, legalErrcode_kept.step hcode h, legalErrlog_kept.step hlog h,
    legalStep_kept.step hstep h, errorNeedsDone_kept.step hdone h⟩

/-- Settles O51: a fixed state. -/
theorem invariantHoldsAtReset : Obligations.InvariantHoldsAtReset := by
  unfold Obligations.InvariantHoldsAtReset
  decide

end Sys2Proof.Machine
end

section
/-!
SUPPORT. The family of 10_state.md, second part: the step by the access it takes, and what each command does to the key, the
log, `FLAG` and the operands.
-/

namespace Sys2Proof.Machine

open Sys2Proof.Safety

/-! ## A word that decodes is the word of its command (30_encoding.md R60, R61) -/

theorem fields_of_decodeOp {op : Byte} {var : Bool} {i : Instr} (h : decodeOp op var = .ok i) :
    i.op = op ∧ i.varBit = var := by
  simp only [decodeOp, ite_eq_iff, reduceCtorEq, and_false, false_or] at h
  rcases h with ⟨rfl, h⟩ | ⟨-, -, hvar, h⟩
  · cases var <;> cases h <;> exact ⟨rfl, rfl⟩
  · rw [Bool.not_eq_true] at hvar
    repeat' rcases h with ⟨rfl, ⟨⟩⟩ | ⟨-, h⟩
    all_goals exact ⟨rfl, hvar.symm⟩

theorem word_commandFields (w : Word) : (commandFields w).word = w := by
  have hvar : BitVec.ofBool (w.getLsbD 8) = w.extractLsb' 8 1 := by
    ext k hk
    obtain rfl : k = 0 := by omega
    simp
  simp only [CommandFields.word, commandFields, hvar]
  rw [BitVec.extractLsb'_append_extractLsb'_eq_extractLsb' (by rfl),
    BitVec.extractLsb'_append_extractLsb'_eq_extractLsb' (by rfl)]
  exact BitVec.extractLsb'_eq_self

theorem encode_of_decodeWord {w : Word} {i : Instr} (h : decodeWord w = .ok i) : encode i = w := by
  simp only [decodeWord] at h
  split at h
  · rename_i hzero
    obtain ⟨hop, hvar⟩ := fields_of_decodeOp h
    rw [encode, hop, hvar, ← hzero]
    exact word_commandFields w
  · cases h

theorem mem_legalWords_of_decodeWord {w : Word} {i : Instr} (h : decodeWord w = .ok i) : w ∈ legalWords := by
  rw [← encode_of_decodeWord h]
  cases i <;> decide

/-! ## A step, by the access it takes -/

theorem step_wrLine {s : State} {g : Reg} {v : Word} {rest : List PortEvent} (hp : s.pending = wrLine g v :: rest)
    (hg : g ≠ .cmd) : step s = .next (writeReg (setPending rest s) v g) := by
  have hc : commandIssued (wrLine g v) = none := by
    cases g with
    | cmd => exact absurd rfl hg
    | _ => rfl
  rw [step_access hp hc, ← hostWrite_offset]
  rfl

theorem step_resetInput {s : State} {rest : List PortEvent} (hp : s.pending = .resetInput :: rest) :
    step s = .next (resetAll (setPending rest s)) := step_access hp rfl

theorem step_word_not_legal {s : State} {w : Word} {rest : List PortEvent} (hp : s.pending = commandWrite w :: rest)
    (hw : w ∉ legalWords) : step s = .next (illegalCommand (setPending rest s)) := by
  rcases hd : decodeWord w with x | i
  · exact step_illegal hp hd
  · exact absurd (mem_legalWords_of_decodeWord hd) hw

/-! ## The key (10_state.md R20, R26) -/

theorem exec_of_no_key {i : Instr} {s : State} (hi : needsKey i = true) (hk : s.keyv = false) :
    exec i s = .next (raise (some i) .noKey s) := by
  cases i with
  | qrtest | pfwd | pinv | encode | decode => exact withKey_of_no_key hk
  | _ => cases hi

/-- Settles O12: a write to `P`, `Q`, `E` and a rejected `KEYLOAD` end in `invalidateKey`, the resets in `resetAll`; the last
clause is `keyConsistent_kept`. -/
theorem keyIsInvalidatedAsStated : Obligations.KeyIsInvalidatedAsStated := by
  refine ⟨fun s g v rest hg hp => ?_, fun i s t hi h hcode => ?_, fun s t h => ?_, fun s t rest hp h => ?_,
    fun i s hi hk => ?_, fun s t hs h => keyConsistent_kept.step hs h⟩
  · obtain rfl | rfl | rfl : g = .p ∨ g = .q ∨ g = .e := by simpa using hg
    all_goals exact ⟨_, step_wrLine hp (by decide), rfl, rfl, rfl⟩
  · obtain ⟨v, hv⟩ := exec_keyload hi
    rcases keyload_cases (hv ▸ h) with ⟨-, rfl⟩ | ⟨k, -, rfl⟩
    · exact ⟨rfl, rfl, rfl⟩
    · simp at hcode
  · rw [execSreset_cases h]
    exact ⟨rfl, rfl⟩
  · rw [step_resetInput hp] at h
    injection h with h
    exact h ▸ ⟨rfl, rfl⟩
  · have hneeds : needsKey i = true := by revert i; decide
    exact ⟨_, exec_of_no_key hneeds hk, rfl⟩

theorem not_keyv_writeReg {s : State} (hk : s.keyv = false) (v : Word) (g : Reg) : (writeReg s v g).keyv = false := by
  cases g with
  | p | q | e => rfl
  | _ => exact hk

/-- No access but a command ends a time without a key. -/
theorem not_keyv_kept : KeptByAccesses fun s => s.keyv = false where
  pushReturned _ _ h := h
  logBusError _ h := h
  writeReg _ v g h := not_keyv_writeReg h v g
  resetAll _ := rfl

/-- The one way a command leaves a key where there was none. -/
theorem keyload_of_exec_keyv {i : Instr} {s t : State} (h : exec i s = .next t) (hk : s.keyv = false)
    (ht : t.keyv = true) : i ∈ [Instr.keyloadA, .keyloadB] ∧ t.errcode = 0#8 := by
  by_cases hi : i = .sreset
  · subst hi
    rw [execSreset_cases h] at ht
    cases ht
  · obtain ⟨o, u, hu, rfl⟩ := exec_body h hi
    rw [finish_keyv] at ht
    cases hu with
    | keyInstalled hi => exact ⟨hi, rfl⟩
    | keyRejected => cases ht
    | _ => exact absurd (hk.symm.trans ht) Bool.false_ne_true

/-- The whole effect of `NoKey` (60_exceptions.md R182, R189). -/
theorem raise_noKey_eq (i : Instr) (s : State) :
    raise (some i) .noKey s =
      { s with
        errcode := 6#8, errlog := s.errlog ||| 0x20#32, done := true
        flag := if i = .qrtest ∨ i = .decode then false else s.flag } := by
  cases i <;> rfl

/-- Settles O58: of all a step can do, only a command can leave a key where there was none. -/
theorem noKeyUntilAKeyloadSucceeds : Obligations.NoKeyUntilAKeyloadSucceeds := by
  refine ⟨rfl, fun s t hk h ht => ?_, fun i s hi hk => ?_⟩
  · rcases step_cases h with ⟨-, rfl⟩ | ⟨ev, rest, -, -, rfl⟩ | ⟨w, rest, i, hp, hd, h⟩ | ⟨w, rest, x, -, -, rfl⟩
    · exact absurd (hk.symm.trans ht) Bool.false_ne_true
    · exact absurd ((not_keyv_kept.portEffect ev (s := setPending rest s) hk).symm.trans ht) Bool.false_ne_true
    · obtain ⟨hi, hcode⟩ := keyload_of_exec_keyv h hk ht
      exact ⟨i, rest, hi, by rw [hp, cmdLine, encode_of_decodeWord hd], hcode⟩
    · exact absurd (hk.symm.trans ht) Bool.false_ne_true
  · have hneeds : needsKey i = true := by revert i; decide
    rw [exec_of_no_key hneeds hk, raise_noKey_eq]

/-! ## The log (10_state.md R14, 60_exceptions.md R196) -/

theorem word_and_or_self (x y : Word) : x &&& (x ||| y) = x := by
  ext k hk
  simpa using .inl

/-- A command but `SRESET` takes no bit from the log: it leaves it, or `raise` adds one. -/
theorem exec_keeps_errlog {i : Instr} {s t : State} (h : exec i s = .next t) (hi : i ≠ .sreset) :
    s.errlog &&& t.errlog = s.errlog := by
  obtain ⟨o, u, hu, rfl⟩ := exec_body h hi
  cases o with
  | none => rw [finish_none, complete_errlog, commandBody_errlog hu, BitVec.and_self]
  | some x => rw [finish_some, raise_errlog, commandBody_errlog hu, word_and_or_self]

/-- The one write that takes bits from the log is `WR ERRLOG`. -/
theorem writeReg_keeps_errlog {s : State} {g : Reg} (hg : g ≠ .errlog) (v : Word) :
    s.errlog &&& (writeReg s v g).errlog = s.errlog := by
  cases g with
  | errlog => exact absurd rfl hg
  | id | status | r | n | phi | crtC | crtD | dexp | cur | step => exact word_and_or_self _ _
  | _ => exact BitVec.and_self

theorem portEffect_keeps_errlog {s : State} {ev : PortEvent} (hlog : ∀ v, ev ≠ wrLine .errlog v)
    (hreset : ev ≠ .resetInput) : s.errlog &&& (portEffect ev s).errlog = s.errlog := by
  cases ev with
  | rd off n =>
    change s.errlog &&& (hostRead off n s).2.errlog = s.errlog
    rcases hostRead_cases off n s with ⟨g, h⟩ | h <;> rw [h]
    · exact BitVec.and_self
    · exact word_and_or_self _ _
  | wr off n v =>
    change s.errlog &&& (hostWrite off n v s).errlog = s.errlog
    rcases hostWrite_cases off n v s with ⟨g, hline, h⟩ | h <;> rw [h]
    · exact writeReg_keeps_errlog (fun hg => hlog v (hg ▸ hline)) v
    · exact word_and_or_self _ _
  | resetInput => exact absurd rfl hreset

/-- Settles O13: no operation of a step but the three R196 names takes a bit from the log. -/
theorem errorLogIsSticky : Obligations.ErrorLogIsSticky := by
  refine ⟨fun s t h hlog hsreset hreset => ?_, fun s mask rest hp => step_wrLine hp (by decide)⟩
  rcases step_cases h with ⟨-, rfl⟩ | ⟨ev, rest, hp, -, rfl⟩ | ⟨w, rest, i, hp, hd, h⟩ | ⟨w, rest, x, -, -, rfl⟩
  · exact BitVec.and_self
  · rw [hp] at hlog hreset
    exact portEffect_keeps_errlog (s := setPending rest s) (fun v hv => hlog v rest (hv ▸ rfl))
      (fun hv => hreset rest (hv ▸ rfl))
  · refine exec_keeps_errlog (s := setPending rest s) h fun hi => hsreset rest ?_
    rw [hp, cmdLine, ← hi, encode_of_decodeWord hd]
  · exact word_and_or_self _ _

/-! ## `FLAG` (10_state.md R28) -/

theorem exec_keeps_flag {i : Instr} {s t : State} (h : exec i s = .next t)
    (hi : i ∉ [Instr.pred, .qrtest, .decode, .sreset]) : t.flag = s.flag := by
  obtain ⟨o, u, hu, rfl⟩ := exec_body h (by rintro rfl; simp at hi)
  have hraise : clearsFlagOnError (some i) = false := by
    cases i with
    | qrtest | decode => simp at hi
    | _ => rfl
  have hflag : u.flag = s.flag := by
    cases hu with
    | flag b hb =>
      obtain rfl | rfl : i = .pred ∨ i = .qrtest := by simpa using hb
      all_goals simp at hi
    | decoded => simp at hi
    | _ => rfl
  cases o with
  | none => exact hflag
  | some x => rw [finish_some, raise_flag, hraise, hflag]; rfl

theorem qrtest_flag {s t : State} (h : exec .qrtest s = .next t) :
    t.flag = if t.errcode = 0#8 then qr s s.a else false := by
  rcases execQrtest_cases h with ⟨-, rfl⟩ | ⟨-, -, rfl⟩ <;> rfl

/-- After the loop `FLAG` is 1 exactly for a member, and an error clears it (44_codec.md R138). -/
theorem decodeCommit_flag (s : State) (d : DecodeEnd) :
    ((decodeCommit s d).flag = true ↔ ∃ c, d = .member c) ∧
      ((decodeCommit s d).errcode ≠ 0#8 → (decodeCommit s d).flag = false) := by
  cases d <;> simp [decodeCommit, clearsFlagOnError]

theorem decode_flag {s t : State} (h : exec .decode s = .next t) :
    (t.flag = true ↔ s.keyv = true ∧ s.cwvx = true ∧ s.cwvp = true ∧
      ∃ c, decodeLoop (inv s) s.cwP 32 0 s.cwX = .member c) ∧
    (t.errcode ≠ 0#8 → t.flag = false) := by
  rcases execDecode_cases h with ⟨hk, rfl⟩ | ⟨-, hcw, rfl⟩ | ⟨hk, hcw, rfl⟩
  · simp [hk, clearsFlagOnError]
  · rw [Bool.and_eq_false_iff] at hcw
    rcases hcw with hcw | hcw <;> simp [hcw, clearsFlagOnError]
  · obtain ⟨hx, hp⟩ := (Bool.and_eq_true _ _).mp hcw
    simpa [hk, hx, hp, Config.K] using decodeCommit_flag _ _

/-- Settles O40: each clause is the lemma about its command; a reset clears `FLAG`, an illegal word is no command. -/
theorem flagIsWrittenAsStated : Obligations.FlagIsWrittenAsStated := by
  refine ⟨fun i s t => exec_keeps_flag, fun s t h => ?_, fun s t => qrtest_flag, fun s t => decode_flag,
    fun s t h => ?_, fun s t rest hp h => ?_, fun s t w rest hp hw h => ?_⟩
  · rw [execPred_cases h]
    rfl
  · rw [execSreset_cases h]
    rfl
  · rw [step_resetInput hp] at h
    injection h with h
    exact h ▸ rfl
  · rw [step_word_not_legal hp hw] at h
    injection h with h
    exact h ▸ rfl

/-! ## Operands, `R` and the codes (10_state.md R11, R13; 60_exceptions.md R181) -/

/-- Settles O41: no body writes an operand, and the one that writes `R` ends without error. -/
theorem engineNeverWritesOperands : Obligations.EngineNeverWritesOperands := by
  refine ⟨fun i s t h hi => ?_, fun i s t h hi hr => ?_⟩
  · obtain ⟨o, u, hu, rfl⟩ := exec_body h hi
    simp only [finish_a, finish_b, finish_m, finish_p, finish_q, finish_e, finish_x0]
    cases hu <;> exact ⟨rfl, rfl, rfl, rfl, rfl, rfl, rfl⟩
  · obtain ⟨o, u, hu, rfl⟩ := exec_body h hi
    rw [finish_r]
    cases hu with
    | result w hmem => exact absurd hmem (hr.resolve_left fun hcode => hcode rfl)
    | _ => rfl

theorem finish_errcode_mem {i : Instr} {o : Option ErrorKind} {s u : State} (h : CommandBody s i o u) :
    (finish i o u).errcode ∈ 0#8 :: (commandErrors i).map ErrorKind.errcode := by
  cases o with
  | none => exact List.mem_cons_self
  | some x => exact List.mem_cons_of_mem _ (List.mem_map_of_mem (commandBody_error h))

/-- Settles O48: the codes are those of `commandErrors`. -/
theorem commandsCompleteWithTheirOwnCodes : Obligations.CommandsCompleteWithTheirOwnCodes := by
  intro i s t h hi
  obtain ⟨o, u, hu, rfl⟩ := exec_body h hi
  have hcode := finish_errcode_mem hu
  exact ⟨finish_done i o u, by cases i <;> exact hcode⟩

/-! ## Reset and the layout of `STATUS` (10_state.md R13, R26) -/

theorem readReg_resetAll (s : State) (g : Reg) : readReg (resetAll s) g = readReg State.reset g := by
  cases g <;> rfl

/-- Settles O1: `State.reset` field by field, `readReg_resetAll` after `SRESET`, and `exec_of_no_key`. -/
theorem resetGivesEveryRegisterItsValue : Obligations.ResetGivesEveryRegisterItsValue := by
  refine ⟨by decide, fun g => ?_, by decide, fun s => ⟨_, rfl, readReg_resetAll s⟩, fun i hi => ?_⟩
  · cases g <;> rfl
  · have hneeds : needsKey i = true := by revert i; decide
    rw [exec_of_no_key hneeds rfl, raise_noKey_eq]
    simp [State.reset]

/-! A concatenation with a single bit below it, taken apart one bit at a time. -/

section
variable {n : Nat} (x : BitVec n) (y : BitVec 1) (b : Bool)

theorem getLsbD_succ_append_bit (k : Nat) : (x ++ y).getLsbD (k + 1) = x.getLsbD k := by
  simp [BitVec.getLsbD_append]

theorem getLsbD_zero_append_ofBool : (x ++ BitVec.ofBool b).getLsbD 0 = b := by
  rw [BitVec.getLsbD_append, if_pos Nat.one_pos, BitVec.getLsbD_ofBool]
  rfl

theorem extractLsb'_succ_append_bit (k len : Nat) : (x ++ y).extractLsb' (k + 1) len = x.extractLsb' k len :=
  BitVec.extractLsb'_append_eq_of_le (Nat.succ_le_succ k.zero_le)

end

/-- Settles O11: each bit lies in one part of the concatenation. -/
theorem statusIsAssembledFromTheFlags : Obligations.StatusIsAssembledFromTheFlags := by
  intro s
  have hvar : s.var.bit = decide (s.var = .b) := by cases s.var <;> rfl
  have herr : errFlag s = decide (s.errcode ≠ 0#8) := by simp [errFlag, bne, beq_eq_decide]
  rw [← hvar, ← herr]
  unfold statusWord
  refine ⟨?done, ?err, ?flag, ?keyv, ?var, ?cwvx, ?cwvp, ?zero, ?code, ?high⟩
  case code =>
    repeat rw [extractLsb'_succ_append_bit]
    exact BitVec.extractLsb'_append_eq_right
  case high =>
    repeat rw [extractLsb'_succ_append_bit]
    exact BitVec.extractLsb'_append_eq_left
  case zero =>
    repeat rw [getLsbD_succ_append_bit]
    exact getLsbD_zero_append_ofBool _ false
  all_goals
    repeat rw [getLsbD_succ_append_bit]
    exact getLsbD_zero_append_ofBool _ _

end Sys2Proof.Machine
end

section
/-!
SUPPORT. The family of 20_memory.md: the address the block decodes (R40), the accesses it refuses (R42, R45), those it
performs (R43, R44), and, host side, the order of bits and bytes in a stream (R47, R48).
-/

namespace Sys2Proof.Machine

open Sys2Proof.Safety

/-! ## Addresses (20_memory.md R40) -/

theorem offsetOf_base_add (off : Byte) : offsetOf (Config.base + off.toNat) = off := by
  rw [offsetOf, Config.base, Config.window]
  apply BitVec.eq_of_toNat_eq
  rw [BitVec.toNat_ofNat]
  omega

theorem offsetOf_add_window (addr : Nat) : offsetOf (addr + Config.window) = offsetOf addr := by
  rw [offsetOf, offsetOf, Config.window]
  apply BitVec.eq_of_toNat_eq
  rw [BitVec.toNat_ofNat, BitVec.toNat_ofNat]
  omega

/-- Settles O10: `BASE` and the distance of two windows are multiples of 256. -/
theorem hostAddressesDecodeToOffsets : Obligations.HostAddressesDecodeToOffsets :=
  ⟨offsetOf_base_add, fun g => offsetOf_base_add g.offset, offsetOf_add_window⟩

/-! ## Refused accesses (20_memory.md R42, R45) -/

theorem accessOk_iff (off : Byte) (n : Nat) : accessOk off n = true ↔ n = 4 ∧ off.toNat % 4 = 0 := by
  simp [accessOk]

theorem offset_of_regAt {off : Byte} {g : Reg} (h : regAt off = some g) : g.offset = off := by
  simpa using List.find?_some h

/-- An access of the stated width and alignment finds no register at 0x54 and above. -/
theorem regAt_eq_none_of_accessOk {off : Byte} {n : Nat} (h : n ≠ 4 ∨ off.toNat % 4 ≠ 0 ∨ 0x54 ≤ off.toNat)
    (hok : accessOk off n = true) : regAt off = none := by
  obtain ⟨hwidth, halign⟩ := (accessOk_iff off n).mp hok
  rcases h with h | h | h
  · exact absurd hwidth h
  · exact absurd halign h
  · exact (regAt_eq_none_iff off halign).mpr h

theorem hostRead_refused {off : Byte} {n : Nat} (h : accessOk off n = true → regAt off = none) (s : State) :
    hostRead off n s = (0#32, logBusError s) := by
  unfold hostRead
  split
  · rename_i hok
    rw [h hok]
  · rfl

theorem writeReg_readOnly {g : Reg} (h : g.access = .ro) (s : State) (v : Word) : writeReg s v g = logBusError s := by
  cases g with
  | id | status | r | n | phi | crtC | crtD | dexp | cur | step => rfl
  | _ => cases h

/-- No register that may be written lies where the access goes, if it goes anywhere. -/
def WriteRefused (off : Byte) (n : Nat) : Prop :=
  accessOk off n = true → Reg.access <$> regAt off = some .ro ∨ regAt off = none

theorem hostWrite_refused {off : Byte} {n : Nat} (h : WriteRefused off n) (v : Word) (s : State) :
    hostWrite off n v s = logBusError s := by
  unfold hostWrite
  split
  · rename_i hok
    rcases h hok with hro | hnone
    · obtain ⟨g, hg, hro⟩ := Option.map_eq_some_iff.mp hro
      rw [hg]
      exact writeReg_readOnly hro s v
    · rw [hnone]
  · rfl

/-- A refused write issues no command: `CMD` may be written. -/
theorem commandIssued_refused {off : Byte} {n : Nat} (h : WriteRefused off n) (v : Word) :
    commandIssued (.wr off n v) = none := by
  refine Option.eq_none_iff_forall_ne_some.mpr fun w hw => ?_
  obtain ⟨rfl, rfl, -⟩ := (PortEvent.wr.injEq ..).mp ((commandIssued_eq_some_iff _ w).mp hw)
  exact absurd (h (accessOk_offset .cmd)) (by decide)

theorem step_wr_refused {s : State} {off : Byte} {n : Nat} {v : Word} {rest : List PortEvent}
    (hp : s.pending = .wr off n v :: rest) (h : WriteRefused off n) :
    step s = .next { s with pending := rest, errlog := s.errlog ||| 0x100#32 } := by
  rw [step_access hp (commandIssued_refused h v), portEffect, hostWrite_refused h]
  rfl

/-- Settles O8: the widths and offsets listed leave no register, or a read-only one. -/
theorem refusedWritesOnlyLogBusError : Obligations.RefusedWritesOnlyLogBusError := by
  intro s off n v rest hp h
  refine step_wr_refused hp fun hok => ?_
  rcases h with hwidth | halign | hhigh | hmem
  · exact .inr (regAt_eq_none_of_accessOk (.inl hwidth) hok)
  · exact .inr (regAt_eq_none_of_accessOk (.inr (.inl halign)) hok)
  · exact .inr (regAt_eq_none_of_accessOk (.inr (.inr hhigh)) hok)
  · have hreg : off ∈ (Reg.all.filter (·.access = .ro)).map Reg.offset := hmem
    obtain ⟨g, hg, rfl⟩ := List.mem_map.mp hreg
    rw [regAt_offset]
    exact .inl (congrArg some (of_decide_eq_true (List.mem_filter.mp hg).2))

/-! ## Performed accesses (20_memory.md R43, R44) -/

@[simp] theorem readReg_setPending (evs : List PortEvent) (s : State) (g : Reg) :
    readReg (setPending evs s) g = readReg s g := by
  cases g <;> rfl

theorem step_rdLine {s : State} {g : Reg} {rest : List PortEvent} (hp : s.pending = rdLine g :: rest) :
    step s = .next { s with pending := rest, returned := s.returned ++ [readReg s g] } := by
  rw [step_access hp rfl, rdLine, portEffect, hostRead_offset, readReg_setPending]
  rfl

/-- Settles O7: the list of offsets and values is that of the registers and what `readReg` reads of them. -/
theorem hostReadReturnsTheRegister : Obligations.HostReadReturnsTheRegister := by
  intro s off n rest hp
  refine ⟨fun v hn hmem => ?_, fun g hn hoff => ?_, fun h => ?_⟩
  · have hreg : (off, v) ∈ Reg.all.map fun g => (g.offset, readReg s g) := hmem
    obtain ⟨g, -, hg⟩ := List.mem_map.mp hreg
    obtain ⟨rfl, rfl⟩ := Prod.mk.inj hg
    subst hn
    exact step_rdLine hp
  · subst hn hoff
    exact step_rdLine hp
  · rw [step_access hp rfl, portEffect, hostRead_refused (regAt_eq_none_of_accessOk h)]
    rfl

/-- Settles O9: `step_wrLine` for each register that may be written, a command's two ends for `CMD`, and
`step_wr_refused`. -/
theorem hostWriteByRegisterClass : Obligations.HostWriteByRegisterClass := by
  intro s off v rest hp
  have hline {g : Reg} (hg : g ≠ .cmd) (hoff : off = g.offset) : step s = .next (writeReg (setPending rest s) v g) :=
    step_wrLine (by rw [hp, hoff]; rfl) hg
  refine ⟨hline (g := .a) (by decide), hline (g := .b) (by decide), hline (g := .m) (by decide),
    hline (g := .x0) (by decide), hline (g := .p) (by decide), hline (g := .q) (by decide), hline (g := .e) (by decide),
    hline (g := .cwX) (by decide), hline (g := .cwP) (by decide), hline (g := .errlog) (by decide),
    fun hoff i hd => ?_, fun hoff hw => ?_, fun h _ => step_wr_refused hp fun _ => h⟩
  · exact step_legal (by rw [hp, hoff]; rfl) hd
  · exact step_word_not_legal (by rw [hp, hoff]; rfl) hw

/-! ## A byte and its bits, most significant first (20_memory.md R47, R48) -/

theorem byteBits_getElem? (x : Byte) {k : Nat} (hk : k < 8) : (byteBits x)[k]? = some (x.getLsbD (7 - k)) := by
  simp [byteBits, hk]

@[simp] theorem byteBits_length (x : Byte) : (byteBits x).length = 8 := rfl

theorem plaintextBits_getElem? (bytes : List Byte) (j : Nat) :
    (plaintextBits bytes)[j]? = bytes[j / 8]?.map fun x => x.getLsbD (7 - j % 8) := by
  unfold plaintextBits
  induction bytes generalizing j with
  | nil => rfl
  | cons x rest ih =>
    rw [List.flatMap_cons, List.getElem?_append, byteBits_length]
    split
    · rename_i hj
      rw [byteBits_getElem? x hj, Nat.div_eq_of_lt hj, Nat.mod_eq_of_lt hj]
      rfl
    · rename_i hj
      obtain ⟨k, rfl⟩ := Nat.exists_eq_add_of_le' (Nat.le_of_not_lt hj)
      rw [Nat.add_sub_cancel, ih, Nat.add_div_right k (by decide), Nat.add_mod_right]
      rfl

theorem plaintextBits_append (xs ys : List Byte) : plaintextBits (xs ++ ys) = plaintextBits xs ++ plaintextBits ys :=
  List.flatMap_append

theorem byteBits_eq (x : Byte) :
    byteBits x = [x.getLsbD 7, x.getLsbD 6, x.getLsbD 5, x.getLsbD 4, x.getLsbD 3, x.getLsbD 2, x.getLsbD 1, x.getLsbD 0] :=
  rfl

theorem byteBits_injective {x y : Byte} (h : byteBits x = byteBits y) : x = y := by
  refine BitVec.eq_of_getLsbD_eq fun k hk => ?_
  have hbit := congrArg (·[7 - k]?) h
  simpa only [byteBits_getElem? _ (show 7 - k < 8 by omega), Option.some.injEq, show 7 - (7 - k) = k by omega] using hbit

theorem plaintextBits_packBits_eight (a b c d e f g h : Bool) :
    plaintextBits (packBits [a, b, c, d, e, f, g, h]) = [a, b, c, d, e, f, g, h] := by
  simp only [plaintextBits, packBits, List.flatMap_singleton, byteBits_eq]
  repeat rw [getLsbD_succ_append_bit]
  simp only [getLsbD_zero_append_ofBool, BitVec.getLsbD_ofBool, decide_true, Bool.true_and]

theorem packBits_byteBits (x : Byte) : packBits (byteBits x) = [x] :=
  congrArg ([·]) (byteBits_injective (plaintextBits_packBits_eight ..))

theorem packBits_byteBits_append (x : Byte) (rest : List Bool) : packBits (byteBits x ++ rest) = x :: packBits rest :=
  congrArg (· ++ packBits rest) (packBits_byteBits x)

theorem packBits_plaintextBits (bytes : List Byte) : packBits (plaintextBits bytes) = bytes := by
  induction bytes with
  | nil => rfl
  | cons x rest ih => exact (packBits_byteBits_append x (plaintextBits rest)).trans (congrArg (x :: ·) ih)

/-- A list that does not begin with eight elements, and whose length is a multiple of 8, is empty. -/
theorem eq_nil_of_no_eight {α : Type} {l : List α} (hl : l.length % 8 = 0)
    (h : ∀ a b c d e f g i rest, l = a :: b :: c :: d :: e :: f :: g :: i :: rest → False) : l = [] := by
  match l, hl, h with
  | [], _, _ => rfl
  | a :: b :: c :: d :: e :: f :: g :: i :: rest, _, h => exact (h a b c d e f g i rest rfl).elim

theorem plaintextBits_packBits {bits : List Bool} (hl : bits.length % 8 = 0) : plaintextBits (packBits bits) = bits := by
  fun_induction packBits bits with
  | case1 a b c d e f g h rest ih =>
    have hrest : rest.length % 8 = 0 := by
      simp only [List.length_cons] at hl
      omega
    exact congrArg₂ (· ++ ·) (plaintextBits_packBits_eight a b c d e f g h) (ih hrest)
  | case2 bits h => rw [eq_nil_of_no_eight hl h]; rfl

/-! ## Codewords (20_memory.md R47, R48) -/

theorem wordBytes_getElem? (x : Word) {k : Nat} (hk : k < 4) : (wordBytes x)[k]? = some (x.extractLsb' (24 - 8 * k) 8) := by
  match k, hk with
  | 0, _ | 1, _ | 2, _ | 3, _ => rfl

/-- The bits of the four bytes of a word, in the order of the stream. -/
theorem plaintextBits_wordBytes (x : Word) {t : Nat} (ht : t < 32) :
    (plaintextBits (wordBytes x))[t]? = some (x.getLsbD (31 - t)) := by
  rw [plaintextBits_getElem?, wordBytes_getElem? x (by omega), Option.map_some, BitVec.getLsbD_extractLsb',
    decide_eq_true (by omega), Bool.true_and]
  congr 2
  omega

theorem word_of_wordBytes (x : Word) :
    x.extractLsb' 24 8 ++ x.extractLsb' 16 8 ++ x.extractLsb' 8 8 ++ x.extractLsb' 0 8 = x := by
  rw [BitVec.extractLsb'_append_extractLsb'_eq_extractLsb' (by rfl),
    BitVec.extractLsb'_append_extractLsb'_eq_extractLsb' (by rfl),
    BitVec.extractLsb'_append_extractLsb'_eq_extractLsb' (by rfl)]
  exact BitVec.extractLsb'_eq_self

theorem splitBlocks_codewordBytes_append (x p : Word) (rest : List Byte) :
    splitBlocks (codewordBytes x p ++ rest) = (splitBlocks rest).map fun blocks => (x, p) :: blocks := by
  conv_rhs => rw [← word_of_wordBytes x, ← word_of_wordBytes p]
  rfl

theorem splitBlocks_flatMap_codewordBytes (blocks : List (Word × Word)) :
    splitBlocks (blocks.flatMap fun c => codewordBytes c.1 c.2) = some blocks := by
  induction blocks with
  | nil => rfl
  | cons c rest ih => rw [List.flatMap_cons, splitBlocks_codewordBytes_append, ih]; rfl

theorem splitBlocks_eq_none_iff (bytes : List Byte) : splitBlocks bytes = none ↔ bytes.length % 8 ≠ 0 := by
  fun_induction splitBlocks bytes with
  | case1 => simp
  | case2 a b c d e f g h rest ih =>
    rw [Option.map_eq_none_iff, ih]
    simp only [List.length_cons]
    omega
  | case3 bytes hnil h => exact iff_of_true rfl fun hl => hnil (eq_nil_of_no_eight hl h)

/-- Settles O53: each half is four bytes, and a stream's bits are those of its bytes. -/
theorem codewordStreamOrder : Obligations.CodewordStreamOrder := by
  refine ⟨fun x p => splitBlocks_flatMap_codewordBytes [(x, p)], fun x p t ht => ?_⟩
  have hlen : (plaintextBits (wordBytes x)).length = 32 := rfl
  change (plaintextBits (wordBytes x ++ wordBytes p))[t]? = _
  rw [plaintextBits_append, List.getElem?_append, hlen]
  split
  · rename_i hx
    exact plaintextBits_wordBytes x hx
  · rename_i hp
    rw [plaintextBits_wordBytes p (by omega)]
    congr 2
    omega

/-- Settles O54, clause by clause; packing whole bytes loses no bit, so the last clause is the third of the packed bytes. -/
theorem streamsSplitIntoWholeBlocks : Obligations.StreamsSplitIntoWholeBlocks := by
  refine ⟨splitBlocks_eq_none_iff, splitBlocks_flatMap_codewordBytes, plaintextBits_getElem?, packBits_plaintextBits,
    fun bits j hl => ?_⟩
  rw [← plaintextBits_getElem?, plaintextBits_packBits hl]

end Sys2Proof.Machine
end

section
/-!
SUPPORT. The family of 30_encoding.md: command words and commands correspond (R60, R61, R64), and for each command what it
reads and what it leaves unchanged (R63).
-/

namespace Sys2Proof.Machine

open Sys2Proof.Safety

/-! ## The word of a command decodes to it (30_encoding.md R60, R61) -/

/-- The three fields of a word are those it was put together from (R60). -/
theorem commandFields_word (f : CommandFields) : commandFields f.word = f := by
  obtain ⟨zero, var, op⟩ := f
  simp only [commandFields, CommandFields.word, CommandFields.mk.injEq]
  refine ⟨?_, ?_, ?_⟩
  · rw [BitVec.extractLsb'_append_eq_of_le (by decide)]
    exact BitVec.extractLsb'_append_eq_left
  · rw [BitVec.getLsbD_append]
    exact getLsbD_zero_append_ofBool zero var
  · exact BitVec.extractLsb'_append_eq_right

/-- The opcode map gives each command's fields to that command (R61). -/
theorem decodeOp_op_varBit (i : Instr) : decodeOp i.op i.varBit = .ok i := by
  cases i <;> rfl

theorem decodeWord_encode (i : Instr) : decodeWord (encode i) = .ok i := by
  simp only [decodeWord, encode, commandFields_word, decodeOp_op_varBit, if_true]

/-- Settles O4: field by field in both directions. -/
theorem decodeAndEncodeAgree : Obligations.DecodeAndEncodeAgree :=
  ⟨fun i _ => decodeWord_encode i, fun _ _ => encode_of_decodeWord⟩

/-- Settles O3: each of the words is what `encode` puts together from its command's fields. -/
theorem theTwelveCommandWordsDecode : Obligations.TheTwelveCommandWordsDecode :=
  ⟨decodeWord_encode .nop, decodeWord_encode .modpow, decodeWord_encode .modinv, decodeWord_encode .qrtest,
    decodeWord_encode .pred, decodeWord_encode .keyloadA, decodeWord_encode .keyloadB, decodeWord_encode .pfwd,
    decodeWord_encode .pinv, decodeWord_encode .encode, decodeWord_encode .decode, decodeWord_encode .sreset⟩

/-- The legal words are the words of the commands, in the order of the opcode map (R61). -/
theorem legalWords_eq_map_encode :
    legalWords = [Instr.nop, .modpow, .modinv, .qrtest, .pred, .keyloadA, .keyloadB, .pfwd, .pinv, .encode, .decode,
      .sreset].map encode := by
  decide

theorem decodes_iff_mem_legalWords (w : Word) : (∃ i, decodeWord w = .ok i) ↔ w ∈ legalWords := by
  constructor
  · rintro ⟨i, h⟩
    exact mem_legalWords_of_decodeWord h
  · intro h
    rw [legalWords_eq_map_encode] at h
    obtain ⟨i, -, rfl⟩ := List.mem_map.mp h
    exact ⟨i, decodeWord_encode i⟩

/-- Settles O5: a word that is not legal does not decode, and its step raises `IllegalCommand`. -/
theorem otherWordsRaiseIllegalCommand : Obligations.OtherWordsRaiseIllegalCommand := by
  refine ⟨decodes_iff_mem_legalWords, fun s w rest hp hw => ?_⟩
  rw [step_word_not_legal hp hw]
  rfl

/-! ## Frames (30_encoding.md R63) -/

/-- Settles O42: in each of its cases a command writes `R` and completes, or raises an error that keeps `FLAG`. -/
theorem frameOfResultCommands : Obligations.FrameOfResultCommands := by
  intro i s t hi h
  obtain rfl | rfl | rfl | rfl : i = .modpow ∨ i = .modinv ∨ i = .pfwd ∨ i = .pinv := by simpa using hi
  · rcases execModpow_cases h with ⟨-, rfl⟩ | ⟨-, rfl⟩ <;> rfl
  · rcases execModinv_cases h with ⟨-, rfl⟩ | ⟨-, -, rfl⟩ | ⟨-, u, -, rfl⟩ <;> rfl
  · rcases execPfwd_cases h with ⟨-, rfl⟩ | ⟨-, rfl⟩ <;> rfl
  · rcases execPinv_cases h with ⟨-, rfl⟩ | ⟨-, -, rfl⟩ | ⟨-, u, -, rfl⟩ <;> rfl

/-- Settles O43: `NOP` only completes, `PRED` and `QRTEST` write `FLAG` or raise an error that clears it. -/
theorem frameOfFlagCommands : Obligations.FrameOfFlagCommands := by
  refine ⟨fun i s t hi h => ?_, fun s t h => ?_⟩
  · obtain rfl | rfl | rfl : i = .nop ∨ i = .pred ∨ i = .qrtest := by simpa using hi
    · rw [execNop_cases h]
      rfl
    · rw [execPred_cases h]
      rfl
    · rcases execQrtest_cases h with ⟨-, rfl⟩ | ⟨-, -, rfl⟩ <;> rfl
  · rw [execNop_cases h]
    exact ⟨rfl, rfl⟩

/-- Settles O44: a rejection ends in `invalidateKey`, an acceptance in `installKey`. -/
theorem frameOfKeyload : Obligations.FrameOfKeyload := by
  intro i s t hi h
  obtain ⟨v, hv⟩ := exec_keyload hi
  rcases keyload_cases (hv ▸ h) with ⟨-, rfl⟩ | ⟨k, -, rfl⟩
  · obtain rfl | rfl : i = .keyloadA ∨ i = .keyloadB := by simpa using hi
    all_goals rfl
  · rfl

/-- However the decoder's loop ended, its commit writes these registers and flags alone (44_codec.md R138). -/
theorem decodeCommit_frame (s : State) (d : DecodeEnd) :
    decodeCommit s d = { s with
      flag := (decodeCommit s d).flag, cur := (decodeCommit s d).cur, stepReg := (decodeCommit s d).stepReg
      cwvx := (decodeCommit s d).cwvx, cwvp := (decodeCommit s d).cwvp
      errcode := (decodeCommit s d).errcode, errlog := (decodeCommit s d).errlog, done := true } := by
  cases d <;> rfl

/-- Settles O45: `ENCODE` in its two cases, `DECODE` in its two refusals and by `decodeCommit_frame`. -/
theorem frameOfCodecCommands : Obligations.FrameOfCodecCommands := by
  refine ⟨fun s t h => ?_, fun s t h => ?_⟩
  · rcases execEncode_cases h with ⟨-, rfl⟩ | ⟨-, rfl⟩ <;> rfl
  · rcases execDecode_cases h with ⟨-, rfl⟩ | ⟨-, -, rfl⟩ | ⟨-, -, rfl⟩
    · rfl
    · rfl
    · exact decodeCommit_frame _ _

/-! ## What a command reads (30_encoding.md R63, 00_scope.md R9) -/

/-- The next states that the two outcomes answer, where both answer one, are related by `R`. -/
def NextRelated (R : State → State → Prop) (o o' : Result) : Prop :=
  ∀ t t', o = .next t → o' = .next t' → R t t'

theorem nextRelated_next {R : State → State → Prop} {t t' : State} (h : R t t') :
    NextRelated R (.next t) (.next t') := by
  rintro _ _ ⟨⟩ ⟨⟩
  exact h

/-- Two states with the same `KEYV` both raise `NoKey` or both go on. -/
theorem nextRelated_withKey {R : State → State → Prop} {c : Instr} {s s' : State} {body body' : Result}
    (hkey : s.keyv = s'.keyv) (hno : R (raise (some c) .noKey s) (raise (some c) .noKey s'))
    (hbody : NextRelated R body body') : NextRelated R (withKey c s body) (withKey c s' body') := by
  rcases hk : s'.keyv with _ | _
  · rw [withKey_of_no_key hk, withKey_of_no_key (hkey.trans hk)]
    exact nextRelated_next hno
  · rwa [withKey_of_keyv hk, withKey_of_keyv (hkey.trans hk)]

/-- Two states that agree on a condition both take the same branch. -/
theorem nextRelated_ite {R : State → State → Prop} {c : Prop} [Decidable c] {o o' p p' : Result}
    (ho : NextRelated R o o') (hp : NextRelated R p p') :
    NextRelated R (if c then o else p) (if c then o' else p') := by
  split
  · exact ho
  · exact hp

/-- The same code, and unless it is an error the same `R`. -/
def SameResult (t t' : State) : Prop := t.errcode = t'.errcode ∧ (t.errcode = 0#8 → t.r = t'.r)

theorem sameResult_raise (c : Option Instr) (x : ErrorKind) (s s' : State) :
    SameResult (raise c x s) (raise c x s') :=
  ⟨rfl, fun h => absurd h (errcode_ne_zero x)⟩

theorem sameResult_complete {u u' : State} (h : u.r = u'.r) : SameResult (complete u) (complete u') :=
  ⟨rfl, fun _ => h⟩

section Reads
variable {s s' : State}

/-- The forward permutation reads `E` under variant (b) only (42_permutation.md R110). -/
theorem fwd_congr (hvar : s.var = s'.var) (hn : s.n = s'.n) (he : s.var = .b → s.e = s'.e) : fwd s = fwd s' := by
  funext x
  rw [fwd, fwd, ← hvar, ← hn]
  rcases hv : s.var with _ | _
  · rfl
  · rw [he hv]

/-- The inverse reads `DEXP` under variant (b) only, the primes and the CRT registers under variant (a) only
(42_permutation.md R112, R113). -/
theorem inv_congr (hvar : s.var = s'.var) (hn : s.n = s'.n) (hdexp : s.var = .b → s.dexp = s'.dexp)
    (hcrt : s.var = .a → s.p = s'.p ∧ s.q = s'.q ∧ s.crtC = s'.crtC ∧ s.crtD = s'.crtD) : inv s = inv s' := by
  funext x
  rw [inv, inv, ← hvar]
  rcases hv : s.var with _ | _
  · obtain ⟨hp, hq, hC, hD⟩ := hcrt hv
    simp only [invA, candidates, hn, hp, hq, hC, hD]
  · simp only [invB, hn, hdexp hv]

theorem qr_congr (hp : s.p = s'.p) (hq : s.q = s'.q) : qr s = qr s' := by
  funext x
  rw [qr, qr, hp, hq]

/-- `KEYLOAD` reads `E` under variant (b) only (41_trapdoor_key.md R101). -/
theorem deriveKey_congr {v : Variant} {p q e e' : Word} (he : v = .b → e = e') :
    deriveKey v p q e = deriveKey v p q e' := by
  cases v with
  | a => rfl
  | b => rw [he rfl]

theorem modpow_reads (ha : s.a = s'.a) (hb : s.b = s'.b) (hm : s.m = s'.m) :
    NextRelated SameResult (exec .modpow s) (exec .modpow s') := by
  rw [exec, exec, execModpow, execModpow, ha, hb, hm]
  exact nextRelated_ite (nextRelated_next (sameResult_raise ..)) (nextRelated_next (sameResult_complete rfl))

theorem modinv_reads (ha : s.a = s'.a) (hm : s.m = s'.m) :
    NextRelated SameResult (exec .modinv s) (exec .modinv s') := by
  rw [exec, exec, execModinv, execModinv, ha, hm]
  refine nextRelated_ite (nextRelated_next (sameResult_raise ..)) ?_
  rcases modinv s'.a s'.m with _ | u
  · exact nextRelated_next (sameResult_raise ..)
  · exact nextRelated_next (sameResult_complete rfl)

theorem qrtest_reads (hkey : s.keyv = s'.keyv) (hvar : s.var = s'.var) (ha : s.a = s'.a) (hp : s.p = s'.p)
    (hq : s.q = s'.q) :
    NextRelated (fun t t' => t.errcode = t'.errcode ∧ t.flag = t'.flag) (exec .qrtest s) (exec .qrtest s') := by
  refine nextRelated_withKey hkey ⟨rfl, rfl⟩ ?_
  rw [← hvar, ← ha, qr_congr hp hq]
  rcases s.var with _ | _ <;> exact nextRelated_next ⟨rfl, rfl⟩

theorem keyload_reads (c : Instr) {v : Variant} (hp : s.p = s'.p) (hq : s.q = s'.q) (he : v = .b → s.e = s'.e) :
    NextRelated (fun t t' => t.errcode = t'.errcode ∧ derivedKey t = derivedKey t' ∧ t.keyv = t'.keyv ∧
      (t.errcode = 0#8 → t.var = t'.var)) (keyload c v s) (keyload c v s') := by
  rw [keyload, keyload, hp, hq, deriveKey_congr he]
  rcases deriveKey v s'.p s'.q s'.e with _ | k
  · exact nextRelated_next ⟨rfl, rfl, rfl, fun h => absurd h (errcode_ne_zero _)⟩
  · exact nextRelated_next ⟨rfl, rfl, rfl, fun _ => rfl⟩

theorem pfwd_reads (hkey : s.keyv = s'.keyv) (hfwd : fwd s = fwd s') (ha : s.a = s'.a) :
    NextRelated SameResult (exec .pfwd s) (exec .pfwd s') := by
  refine nextRelated_withKey hkey (sameResult_raise ..) ?_
  rw [hfwd, ha]
  exact nextRelated_next (sameResult_complete rfl)

theorem pinv_reads (hkey : s.keyv = s'.keyv) (hinv : inv s = inv s') (ha : s.a = s'.a) :
    NextRelated SameResult (exec .pinv s) (exec .pinv s') := by
  refine nextRelated_withKey hkey (sameResult_raise ..) ?_
  rw [hinv, ha]
  rcases inv s' s'.a with _ | u
  · exact nextRelated_next (sameResult_raise ..)
  · exact nextRelated_next (sameResult_complete rfl)

theorem encode_reads (hkey : s.keyv = s'.keyv) (hfwd : fwd s = fwd s') (hx0 : s.x0 = s'.x0) :
    NextRelated (fun t t' => t.errcode = t'.errcode ∧ (t.errcode = 0#8 →
      t.cwX = t'.cwX ∧ t.cwP = t'.cwP ∧ t.cur = t'.cur ∧ t.stepReg = t'.stepReg))
      (exec .encode s) (exec .encode s') := by
  refine nextRelated_withKey hkey ⟨rfl, fun h => absurd h (errcode_ne_zero _)⟩ ?_
  rw [hfwd, hx0]
  exact nextRelated_next ⟨rfl, fun _ => ⟨rfl, rfl, rfl, rfl⟩⟩

/-- An error other than `InversionFailed` leaves `CUR` and `STEP` alone (60_exceptions.md R182); it has neither of the codes
that report them. -/
theorem errcode_of_refused_decode {x : ErrorKind} (hx : x ≠ .inversionFailed) :
    ¬ (x.errcode = 0#8 ∨ x.errcode = 3#8) := by
  cases x with
  | inversionFailed => exact absurd rfl hx
  | _ => decide

theorem decode_reads (hkey : s.keyv = s'.keyv) (hinv : inv s = inv s') (hcwX : s.cwX = s'.cwX) (hcwP : s.cwP = s'.cwP)
    (hcwvx : s.cwvx = s'.cwvx) (hcwvp : s.cwvp = s'.cwvp) :
    NextRelated (fun t t' => t.errcode = t'.errcode ∧ t.flag = t'.flag ∧ t.cwvx = t'.cwvx ∧ t.cwvp = t'.cwvp ∧
      (t.errcode = 0#8 ∨ t.errcode = 3#8 → t.cur = t'.cur ∧ t.stepReg = t'.stepReg))
      (exec .decode s) (exec .decode s') := by
  refine nextRelated_withKey hkey
    ⟨rfl, rfl, hcwvx, hcwvp, fun h => absurd h (errcode_of_refused_decode (by decide))⟩ ?_
  rw [hinv, hcwX, hcwP, hcwvx, hcwvp]
  refine nextRelated_ite ?_ (nextRelated_next
    ⟨rfl, rfl, hcwvx, hcwvp, fun h => absurd h (errcode_of_refused_decode (by decide))⟩)
  rcases decodeLoop (inv s') s'.cwP Config.K 0 s'.cwX with c | ⟨j, c⟩ | ⟨j, c⟩ <;>
    exact nextRelated_next ⟨rfl, rfl, rfl, rfl, fun _ => ⟨rfl, rfl⟩⟩

end Reads

/-- Settles O46, command by command; the permutation's two directions read what `fwd_congr` and `inv_congr` name. -/
theorem commandsReadOnlyTheirOperands : Obligations.CommandsReadOnlyTheirOperands := by
  refine ⟨fun s s' t t' ha hb hm => modpow_reads ha hb hm t t', fun s s' t t' ha hm => modinv_reads ha hm t t',
    fun s s' t t' hk hv ha hp hq => qrtest_reads hk hv ha hp hq t t', fun s s' t t' i hi hp hq he => ?_,
    fun s s' t t' hk hv hn he ha => pfwd_reads hk (fwd_congr hv hn he) ha t t',
    fun s s' t t' hk hv hn hd hcrt ha => pinv_reads hk (inv_congr hv hn hd hcrt) ha t t',
    fun s s' t t' hk hv hn he hx0 => encode_reads hk (fwd_congr hv hn he) hx0 t t',
    fun s s' t t' hk hv hn hd hcrt hx hp hvx hvp =>
      decode_reads hk (inv_congr hv hn hd hcrt) hx hp hvx hvp t t'⟩
  obtain rfl | rfl : i = .keyloadA ∨ i = .keyloadB := by simpa using hi
  · exact keyload_reads .keyloadA (v := .a) hp hq nofun t t'
  · exact keyload_reads .keyloadB (v := .b) hp hq (fun _ => he rfl) t t'

end Sys2Proof.Machine
end

section
/-!
SUPPORT. The family of 40_number_theory.md: the outcome of `MODPOW` and of `MODINV` in each case of their operands (R83, R85),
with the numbers that Laws/Arith.lean gives `modpow` and `modinv`.
-/

namespace Sys2Proof.Machine

/-! ## MODPOW -/

theorem exec_modpow_of_zero {s : State} (h : s.m = 0#32) :
    exec .modpow s = .next (raise (some .modpow) .zeroModulus s) :=
  if_pos h

theorem exec_modpow_of_ne_zero {s : State} (h : s.m ≠ 0#32) :
    exec .modpow s = .next (complete { s with r := modpow s.a s.b s.m }) :=
  if_neg h

/-- `modpow` as a word: the exact power, reduced and narrowed once (R80, R82). -/
theorem modpow_eq_ofNat {m : Word} (h : m ≠ 0#32) (b e : Word) :
    modpow b e m = BitVec.ofNat 32 (b.toNat ^ e.toNat % m.toNat) := by
  rw [← modpow_toNat h, BitVec.ofNat_toNat, BitVec.setWidth_eq]

/-- Settles O15: by whether `M` is zero; the number is `modpow_eq_ofNat`. -/
theorem modpowWritesThePower : Obligations.ModpowWritesThePower := by
  refine ⟨rfl, fun s hm => ?_, fun s hm => ?_⟩
  · rw [exec_modpow_of_ne_zero hm, modpow_eq_ofNat hm]
    rfl
  · rw [exec_modpow_of_zero hm]
    rfl

/-! ## MODINV -/

theorem exec_modinv_of_zero {s : State} (h : s.m = 0#32) :
    exec .modinv s = .next (raise (some .modinv) .zeroModulus s) :=
  if_pos h

theorem exec_modinv_of_none {s : State} (h : s.m ≠ 0#32) (hinv : modinv s.a s.m = none) :
    exec .modinv s = .next (raise (some .modinv) .notInvertible s) := by
  rw [exec, execModinv, if_neg h, hinv]

theorem exec_modinv_of_some {s : State} {t : Word} (h : s.m ≠ 0#32) (hinv : modinv s.a s.m = some t) :
    exec .modinv s = .next (complete { s with r := t }) := by
  rw [exec, execModinv, if_neg h, hinv]

/-- Two inverses of an invertible `a` modulo `m` that are both below `m` are the same (R84). -/
theorem inverse_unique {a m t u : Nat} (hc : Nat.Coprime a m) (ht : t < m) (hu : u < m) (hat : a * t ≡ 1 [MOD m])
    (hau : a * u ≡ 1 [MOD m]) : u = t :=
  (Nat.ModEq.cancel_left_of_coprime hc.symm (hau.trans hat.symm)).eq_of_lt_of_lt hu ht

/-- Settles O16: the two errors of R85 come in its order, `ZeroModulus` first; otherwise `R` takes what `modinv` answers. -/
theorem modinvWritesTheInverse : Obligations.ModinvWritesTheInverse := by
  refine ⟨rfl, fun s hm hc => ?_, fun s hm hc => ?_, fun s hm => ?_⟩
  · obtain ⟨t, hinv⟩ := modinv_of_coprime hm hc
    obtain ⟨ht, hat⟩ := modinv_spec hm hinv
    exact ⟨t, ht, hat, fun u hu hau => inverse_unique hc ht hu hat hau, exec_modinv_of_some hm hinv⟩
  · rw [exec_modinv_of_none hm ((modinv_eq_none_iff hm s.a).mpr hc)]
    rfl
  · rw [exec_modinv_of_zero hm]
    rfl

end Sys2Proof.Machine
end

section
/-!
SUPPORT. The family of 41_trapdoor_key.md: `KEYLOAD` in each case of its operands (R101), the constants it leaves (R102), and
what leaves the key alone (R104). What `deriveKey` answers stands in Laws/Trapdoor.lean.
-/

namespace Sys2Proof.Machine

open Sys2Proof.Safety

/-! ## KEYLOAD, by its operands (R101) -/

section Keyload
variable {c : Instr} {v : Variant} {s t : State}

theorem keyload_of_some {k : DerivedKey} (h : deriveKey v s.p s.q s.e = some k) :
    keyload c v s = .next (complete (installKey v k s)) := by
  rw [keyload, h]

theorem keyload_of_acceptable (h : KeyAcceptable v s.p s.q s.e) :
    ∃ k, KeyDerived v s.p s.q s.e k ∧ keyload c v s = .next (complete (installKey v k s)) := by
  obtain ⟨k, hk⟩ := (deriveKey_isSome_iff v s.p s.q s.e).mpr h
  exact ⟨k, (deriveKey_spec hk).2, keyload_of_some hk⟩

theorem keyload_of_not_acceptable (h : ¬ KeyAcceptable v s.p s.q s.e) :
    keyload c v s = .next (raise (some c) .trapdoorRejected (invalidateKey s)) := by
  rcases hk : deriveKey v s.p s.q s.e with _ | k
  · rw [keyload, hk]
  · exact absurd (deriveKey_spec hk).1 h

/-- A `KEYLOAD` that ends without error has installed what it derived. -/
theorem keyload_of_no_error (h : keyload c v s = .next t) (hcode : t.errcode = 0#8) :
    ∃ k, deriveKey v s.p s.q s.e = some k ∧ t = complete (installKey v k s) := by
  rcases keyload_cases h with ⟨-, rfl⟩ | hinstalled
  · exact absurd hcode (errcode_ne_zero .trapdoorRejected)
  · exact hinstalled

/-- A second `KEYLOAD` finds the operands of the first and the constants already in place. -/
theorem keyload_idempotent (h : keyload c v s = .next t) (hcode : t.errcode = 0#8) : keyload c v t = .next t := by
  obtain ⟨k, hk, rfl⟩ := keyload_of_no_error h hcode
  exact keyload_of_some hk

end Keyload

/-- The constants as the words R101 computes: the two products narrowed, the others as they are. -/
theorem KeyDerived.installKey_eq {v : Variant} {k : DerivedKey} {s : State} (h : KeyDerived v s.p s.q s.e k) :
    complete (installKey v k s) =
      { s with
        n := BitVec.ofNat 32 (s.p.toNat * s.q.toNat)
        phi := BitVec.ofNat 32 ((s.p.toNat - 1) * (s.q.toNat - 1))
        crtC := k.crtC, crtD := k.crtD, dexp := k.dexp, var := v, keyv := true, errcode := 0#8, done := true } := by
  rw [← h.n, ← h.phi, BitVec.ofNat_toNat, BitVec.setWidth_eq, BitVec.ofNat_toNat, BitVec.setWidth_eq]
  rfl

/-- Settles O19: by whether the operands are acceptable; the numbers are those of `KeyDerived`. -/
theorem keyloadDerivesOrRejects : Obligations.KeyloadDerivesOrRejects := by
  refine ⟨⟨rfl, rfl⟩, fun s hacc => ?_, fun s hacc => ?_, fun s hno => ?_, fun s hno => ?_, fun i s t hi h hcode => ?_⟩
  · obtain ⟨k, hk, h⟩ := keyload_of_acceptable (c := .keyloadA) hacc
    refine ⟨k.crtC, k.crtD, hk.crtC_lt, hk.crtC_p, hk.crtC_q, hk.crtD_lt, hk.crtD_p, hk.crtD_q, ?_⟩
    rw [exec, execKeyloadA, h, hk.installKey_eq, hk.dexp_a rfl]
  · obtain ⟨k, hk, h⟩ := keyload_of_acceptable (c := .keyloadB) hacc
    obtain ⟨hlt, hinv⟩ := hk.dexp_b rfl
    refine ⟨k.crtC, k.crtD, k.dexp, hk.crtC_lt, hk.crtC_p, hk.crtC_q, hk.crtD_lt, hk.crtD_p, hk.crtD_q, hlt, hinv, ?_⟩
    rw [exec, execKeyloadB, h, hk.installKey_eq]
  · exact keyload_of_not_acceptable hno
  · exact keyload_of_not_acceptable hno
  · obtain ⟨v, hv⟩ := exec_keyload hi
    rw [hv] at h ⊢
    exact keyload_idempotent h hcode

/-! ## The constants (R102) -/

/-- A number below `p * q` is fixed by its residues modulo the coprime `p` and `q`. -/
theorem eq_of_residues {p q x y : Nat} (hc : Nat.Coprime p q) (hx : x < p * q) (hy : y < p * q)
    (hp : x % p = y % p) (hq : x % q = y % q) : x = y :=
  ((Nat.modEq_and_modEq_iff_modEq_mul hc).mp ⟨hp, hq⟩).eq_of_lt_of_lt hx hy

/-- The two CRT coefficients add up to 1: their sum is 1 modulo `p` and modulo `q`. -/
theorem crt_sum {p q c d : Nat} (hp2 : 2 ≤ p) (hq2 : 2 ≤ q) (hc : Nat.Coprime p q) (hcp : c % p = 1) (hcq : c % q = 0)
    (hdp : d % p = 0) (hdq : d % q = 1) : (c + d) % (p * q) = 1 := by
  have hp : c + d ≡ 1 [MOD p] := by rw [Nat.ModEq, Nat.add_mod, hcp, hdp]
  have hq : c + d ≡ 1 [MOD q] := by rw [Nat.ModEq, Nat.add_mod, hcq, hdq]
  have hpq : c + d ≡ 1 [MOD p * q] := (Nat.modEq_and_modEq_iff_modEq_mul hc).mp ⟨hp, hq⟩
  rwa [Nat.ModEq, Nat.mod_eq_of_lt (one_lt_mul'' hp2 hq2)] at hpq

/-- Settles O20: `KeyDerived` gives the residues, `eq_of_residues` and `crt_sum` what follows from them. -/
theorem derivedConstantsHaveTheirProperties : Obligations.DerivedConstantsHaveTheirProperties := by
  intro i s t hi h hcode
  obtain ⟨v, hv⟩ := exec_keyload hi
  obtain ⟨k, hderive, rfl⟩ := keyload_of_no_error (hv ▸ h) hcode
  obtain ⟨⟨hp2, hq2, -, -, hcop, -⟩, hk⟩ := deriveKey_spec hderive
  have hn : (complete (installKey v k s)).n.toNat = s.p.toNat * s.q.toNat := hk.n
  have hphi : (complete (installKey v k s)).phi.toNat = (s.p.toNat - 1) * (s.q.toNat - 1) := hk.phi
  rw [hn, hphi]
  refine ⟨hk.crtC_p, hk.crtC_q, hk.crtD_p, hk.crtD_q, hk.crtC_lt, hk.crtD_lt, fun c hc hcp hcq => ?_,
    fun d hd hdp hdq => ?_, crt_sum hp2 hq2 hcop hk.crtC_p hk.crtC_q hk.crtD_p hk.crtD_q, fun hb => ?_⟩
  · exact eq_of_residues hcop hc hk.crtC_lt (hcp.trans hk.crtC_p.symm) (hcq.trans hk.crtC_q.symm)
  · exact eq_of_residues hcop hd hk.crtD_lt (hdp.trans hk.crtD_p.symm) (hdq.trans hk.crtD_q.symm)
  · exact (hk.dexp_b hb).symm

/-! ## What leaves the key alone (R104) -/

/-- `t` has the trapdoor, the derived registers, the variant and the key flag of `s`. -/
def SameKey (s t : State) : Prop :=
  t.p = s.p ∧ t.q = s.q ∧ t.e = s.e ∧ derivedKey t = derivedKey s ∧ t.var = s.var ∧ t.keyv = s.keyv

theorem SameKey.refl (s : State) : SameKey s s := ⟨rfl, rfl, rfl, rfl, rfl, rfl⟩

theorem sameKey_finish {s u : State} (h : SameKey s u) (i : Instr) (o : Option ErrorKind) : SameKey s (finish i o u) := by
  simpa [SameKey] using h

theorem exec_sameKey {i : Instr} {s t : State} (h : exec i s = .next t) (hi : i ∉ [Instr.keyloadA, .keyloadB, .sreset]) :
    SameKey s t := by
  have hsreset : i ≠ .sreset := by
    rintro rfl
    exact hi (by decide)
  have hkeyload : i ∉ [Instr.keyloadA, .keyloadB] := fun hmem => hi (List.mem_append_left [Instr.sreset] hmem :)
  obtain ⟨o, u, hu, rfl⟩ := exec_body h hsreset
  refine sameKey_finish ?_ i o
  cases hu with
  | keyInstalled hload | keyRejected hload => exact absurd hload hkeyload
  | _ => exact .refl s

theorem writeReg_sameKey {g : Reg} (hg : g ∉ [Reg.p, .q, .e]) (s : State) (v : Word) : SameKey s (writeReg s v g) := by
  cases g with
  | p | q | e => exact absurd (by decide) hg
  | _ => exact .refl s

theorem portEffect_sameKey {ev : PortEvent} (hwrite : ∀ g v, g ∈ [Reg.p, .q, .e] → ev ≠ wrLine g v)
    (hreset : ev ≠ .resetInput) (s : State) : SameKey s (portEffect ev s) := by
  cases ev with
  | rd off n =>
    change SameKey s (hostRead off n s).2
    rcases hostRead_cases off n s with ⟨g, h⟩ | h <;> rw [h] <;> exact .refl s
  | wr off n v =>
    change SameKey s (hostWrite off n v s)
    rcases hostWrite_cases off n v s with ⟨g, hline, h⟩ | h <;> rw [h]
    · exact writeReg_sameKey (fun hg => hwrite g v hg hline) s v
    · exact .refl s
  | resetInput => exact absurd rfl hreset

/-- Settles O21: a step waits, makes an access or runs a command; the accesses and commands left over keep the key. -/
theorem keyPersists : Obligations.KeyPersists := by
  refine ⟨fun i s t h hi => exec_sameKey h hi, fun s t h hwrite hcmd hreset => ?_⟩
  rcases step_cases h with ⟨-, rfl⟩ | ⟨ev, rest, hp, -, rfl⟩ | ⟨w, rest, i, hp, hd, h⟩ | ⟨w, rest, x, -, -, rfl⟩
  · exact SameKey.refl _
  · rw [hp] at hwrite hreset
    exact portEffect_sameKey (fun g v hg hev => hwrite g v rest hg (hev ▸ rfl)) (fun hev => hreset rest (hev ▸ rfl))
      (setPending rest s)
  · refine exec_sameKey (s := setPending rest s) h fun hi => hcmd i rest hi ?_
    rw [hp, cmdLine, encode_of_decodeWord hd]
  · exact SameKey.refl s

end Sys2Proof.Machine
end

section
/-!
SUPPORT. The family of 42_permutation.md under any consistent key: `PFWD`, `PINV` and `QRTEST` as numbers (R110 to R116), and
their operands as residue classes (R119).
-/

namespace Sys2Proof.Machine

open Sys2Proof.Safety

/-! ## The commands as numbers (R111 to R116) -/

theorem word_eq_ofNat {x : Word} {k : Nat} (h : x.toNat = k) : x = BitVec.ofNat 32 k := by
  rw [← h, BitVec.ofNat_toNat, BitVec.setWidth_eq]

/-- Settles O22: `fwd` as a number in each variant (`fwd_toNat_a`, `fwd_toNat_b`), below `N` by `fwd_lt`. -/
theorem pfwdAppliesThePermutation : Obligations.PfwdAppliesThePermutation := by
  refine ⟨rfl, fun s hk hc hv => ?_, fun s hk hc hv => ?_, fun s hk => ?_,
    fun s x hk hc => fwd_lt (keyNumbers hk hc).n0 x⟩
  · rw [exec_pfwd_of_key hk, word_eq_ofNat (fwd_toNat_a (keyNumbers hk hc).n0 hv s.a)]
    rfl
  · rw [exec_pfwd_of_key hk, word_eq_ofNat (fwd_toNat_b (keyNumbers hk hc).n0 hv s.a)]
    rfl
  · rw [exec_of_no_key rfl hk, raise_noKey_eq]
    rfl

theorem inv_of_a {s : State} (hv : s.var = .a) (x : Word) : inv s x = invA s x := by rw [inv, hv]

theorem inv_of_b {s : State} (hv : s.var = .b) (x : Word) : inv s x = some (invB s x) := by rw [inv, hv]

/-- Settles O23: under variant (b) `inv` always answers, and `invB_toNat` is the number. -/
theorem pinvRaisesToThePrivateExponent : Obligations.PinvRaisesToThePrivateExponent := by
  intro s hk hc hv
  rw [exec_pinv_of_some hk (inv_of_b hv s.a), word_eq_ofNat (invB_toNat (keyNumbers hk hc).n0 s.a)]
  rfl

/-- The candidates of R112 as exact numbers, in its order. -/
def candidateNumbers (s : State) (a : Nat) : List Nat :=
  let n := s.n.toNat
  let u := s.crtC.toNat * (a ^ ((s.p.toNat + 1) / 4) % s.p.toNat) % n
  let w := s.crtD.toNat * (a ^ ((s.q.toNat + 1) / 4) % s.q.toNat) % n
  [(u + w) % n, (u + n - w) % n, (n - u + w) % n, (n - u + n - w) % n]

theorem map_toNat_candidates {s : State} (hk : KeyNumbers s) (a0 : Word) :
    (candidates s (reduce a0.toNat s.n)).map BitVec.toNat = candidateNumbers s a0.toNat := by
  obtain ⟨hp, hq⟩ := rootMod_reduce hk a0
  have hw : s.crtD.toNat * (rootMod a0 s.q).toNat % s.n.toNat ≤ s.n.toNat :=
    (Nat.mod_lt _ (word_toNat_pos hk.n0)).le
  simp only [candidates, candidateNumbers, List.map_cons, List.map_nil, hp, hq, reduce_toNat hk.n0, mulmod_toNat hk.n0,
    ← rootMod_toNat hk.p0, ← rootMod_toNat hk.q0, Nat.add_sub_assoc hw]

/-- `inv_a` searches the candidates as words; the search over the numbers has the same answer. -/
theorem map_toNat_invA {s : State} (hk : KeyNumbers s) (a0 : Word) :
    (invA s a0).map BitVec.toNat =
      (candidateNumbers s a0.toNat).find? fun c => c * c % s.n.toNat == a0.toNat % s.n.toNat := by
  have htest : (fun c : Word => mulmod c c s.n == reduce a0.toNat s.n) =
      (fun c : Nat => c * c % s.n.toNat == a0.toNat % s.n.toNat) ∘ BitVec.toNat := by
    funext c
    rw [Function.comp_apply, Bool.eq_iff_iff, beq_iff_eq, beq_iff_eq, ← BitVec.toNat_inj, mulmod_toNat hk.n0,
      reduce_toNat hk.n0]
  rw [← map_toNat_candidates hk, List.find?_map, ← htest]
  rfl

/-- Settles O24: by whether a candidate validates; `map_toNat_invA` carries the search over to the numbers. -/
theorem pinvTakesTheFirstValidCandidate : Obligations.PinvTakesTheFirstValidCandidate := by
  intro s hk hc hv n x y u w cand
  have hfind : cand.find? (fun c => c * c % n == s.a.toNat % n) = (inv s s.a).map BitVec.toNat := by
    rw [inv_of_a hv, map_toNat_invA (keyNumbers hk hc)]
    rfl
  rw [hfind]
  rcases hinv : inv s s.a with _ | c
  · rw [exec_pinv_of_none hk hinv]
    rfl
  · rw [exec_pinv_of_some hk hinv]
    conv_lhs => rw [word_eq_ofNat (x := c) rfl]
    rfl

/-- Settles O25: `qr_iff` with the roots as numbers; the other clause has no key for `QRTEST`. -/
theorem qrtestChecksBothRoots : Obligations.QrtestChecksBothRoots := by
  refine ⟨fun s hk hc hv => ?_, fun s hno => ?_⟩
  · have hn := keyNumbers hk hc
    have hflag := qr_iff hn s.a
    rw [rootMod_toNat hn.p0, rootMod_toNat hn.q0] at hflag
    rw [exec_qrtest_of_a hk hv, Bool.eq_iff_iff.mpr (hflag.trans (decide_eq_true_iff).symm)]
    rfl
  · have hraise : exec .qrtest s = .next (raise (some .qrtest) .noKey s) :=
      hno.elim (exec_of_no_key rfl) exec_qrtest_of_b
    rw [hraise]
    rfl

/-! ## Operands are residue classes (R119) -/

/-- Settles O31: each function as a number depends on the residue class of its operand only. -/
theorem operandsAreReducedModuloN : Obligations.OperandsAreReducedModuloN := by
  intro s x y hk hc hxy
  have hn := keyNumbers hk hc
  have hreduce : reduce x.toNat s.n = reduce y.toNat s.n :=
    BitVec.eq_of_toNat_eq (by rw [reduce_toNat hn.n0, reduce_toNat hn.n0]; exact hxy)
  have hpow (e : Word) : modpow x e s.n = modpow y e s.n :=
    BitVec.eq_of_toNat_eq (by rw [modpow_toNat hn.n0, modpow_toNat hn.n0]; exact hxy.pow _)
  refine ⟨?_, ?_, ?_⟩
  · rw [fwd, fwd, hreduce, hpow]
  · rw [inv, inv, invA, invA, invB, invB, hreduce, hpow]
  · have hp : x.toNat ≡ y.toNat [MOD s.p.toNat] := hxy.of_dvd (hn.n ▸ dvd_mul_right _ _)
    have hq : x.toNat ≡ y.toNat [MOD s.q.toNat] := hxy.of_dvd (hn.n ▸ dvd_mul_left _ _)
    rw [Bool.eq_iff_iff, qr_iff hn, qr_iff hn, rootMod_congr hn.p0 hp, rootMod_congr hn.q0 hq]
    exact and_congr ⟨fun h => h.trans hp, fun h => h.trans hp.symm⟩ ⟨fun h => h.trans hq, fun h => h.trans hq.symm⟩

end Sys2Proof.Machine
end

section
/-!
SUPPORT. The family of 42_permutation.md under a key made of primes (R116 to R118). The one arithmetic fact is Fermat's little
theorem. Under variant (a) it makes the root of a square verify, so that `inv` answers the principal root, which is unique;
under variant (b) it makes `E * DEXP` an exponent that changes nothing.
-/

namespace Sys2Proof.Machine

open Sys2Proof.Safety

/-! ## Squares and powers modulo a prime -/

theorem isSquareMod_congr {m a b : Nat} (h : a ≡ b [MOD m]) : IsSquareMod m a ↔ IsSquareMod m b :=
  exists_congr fun _ => ⟨fun hy => hy.trans h, fun hy => hy.trans h.symm⟩

theorem isSquareMod_pow {m a : Nat} (h : IsSquareMod m a) (k : Nat) : IsSquareMod m (a ^ k) := by
  obtain ⟨y, hy⟩ := h
  exact ⟨y ^ k, mul_pow y y k ▸ hy.pow k⟩

section PrimeModulus
variable {p : Nat} (hp : p.Prime)
include hp

/-- Fermat's little theorem for every `x`, whether `p` divides it or not. -/
theorem pow_one_add_modEq_self (x j : Nat) : x ^ (1 + (p - 1) * j) ≡ x [MOD p] := by
  rw [pow_add, pow_one, pow_mul]
  by_cases hx : p ∣ x
  · have h0 : x ≡ 0 [MOD p] := Nat.modEq_zero_iff_dvd.mpr hx
    exact (h0.mul_right _).trans (by rw [zero_mul]; exact h0.symm)
  · have hc : Nat.Coprime x p := (hp.coprime_iff_not_dvd.mpr hx).symm
    simpa using ((Nat.ModEq.pow_card_sub_one_eq_one hp hc).pow j).mul_left x

/-- A square times its power `(p - 1) / 2` is itself (R117). -/
theorem mul_pow_half_of_isSquareMod (hodd : p % 2 = 1) {a : Nat} (h : IsSquareMod p a) :
    a * a ^ ((p - 1) / 2) ≡ a [MOD p] := by
  obtain ⟨y, hy⟩ := h
  have hexp : 2 * ((p - 1) / 2) = (p - 1) * 1 := by omega
  calc a * a ^ ((p - 1) / 2)
      ≡ (y * y) * (y * y) ^ ((p - 1) / 2) [MOD p] := (hy.mul (hy.pow _)).symm
    _ = y * y ^ (1 + (p - 1) * 1) := by rw [← pow_two y, ← pow_mul, hexp]; ring
    _ ≡ y * y [MOD p] := (pow_one_add_modEq_self hp y 1).mul_left y
    _ ≡ a [MOD p] := hy

/-- Any other number times its power `(p - 1) / 2` is its negative, by Euler's criterion (R117). -/
theorem mul_pow_half_of_not_isSquareMod (hodd : p % 2 = 1) {a : Nat} (h : ¬ IsSquareMod p a) :
    a * a ^ ((p - 1) / 2) + a ≡ 0 [MOD p] := by
  have : Fact p.Prime := ⟨hp⟩
  have hnot : ¬ IsSquare (a : ZMod p) := by
    rintro ⟨y, hy⟩
    refine h ⟨y.val, (ZMod.natCast_eq_natCast_iff ..).mp ?_⟩
    rw [Nat.cast_mul, ZMod.natCast_zmod_val, hy]
  have hne : (a : ZMod p) ≠ 0 := fun h0 => hnot (h0 ▸ IsSquare.zero)
  have hpow : (a : ZMod p) ^ (p / 2) = -1 :=
    (ZMod.pow_div_two_eq_neg_one_or_one p hne).resolve_left fun h1 => hnot ((ZMod.euler_criterion p hne).mpr h1)
  rw [← ZMod.natCast_eq_natCast_iff, show (p - 1) / 2 = p / 2 by omega]
  push_cast
  rw [hpow]
  ring

end PrimeModulus

/-! ## The root modulo one factor (R112, R117) -/

/-- Twice the root's exponent `(p + 1) div 4` is `(p - 1) / 2 + 1`. -/
theorem rootMod_mul_self {p : Word} (h0 : p ≠ 0#32) (h4 : p.toNat % 4 = 3) (a : Word) :
    (rootMod a p).toNat * (rootMod a p).toNat ≡ a.toNat * a.toNat ^ ((p.toNat - 1) / 2) [MOD p.toNat] := by
  have hexp : (p.toNat - 1) / 2 + 1 = (p.toNat + 1) / 4 + (p.toNat + 1) / 4 := by omega
  rw [rootMod_toNat h0, ← pow_succ', hexp, pow_add]
  exact (Nat.mod_modEq _ _).mul (Nat.mod_modEq _ _)

/-- The root is a power, so the root of a square is a square. -/
theorem isSquareMod_rootMod {p a : Word} (h0 : p ≠ 0#32) (ha : IsSquareMod p.toNat a.toNat) :
    IsSquareMod p.toNat (rootMod a p).toNat := by
  rw [rootMod_toNat h0]
  exact (isSquareMod_congr (Nat.mod_modEq _ _)).mpr (isSquareMod_pow ha _)

section Root
variable {p : Word} (hp : p.toNat.Prime) (h4 : p.toNat % 4 = 3)
include hp h4

theorem rootMod_mul_self_modEq_iff (a : Word) :
    (rootMod a p).toNat * (rootMod a p).toNat ≡ a.toNat [MOD p.toNat] ↔ IsSquareMod p.toNat a.toNat :=
  ⟨fun h => ⟨_, h⟩, fun h => (rootMod_mul_self (word_ne_zero_of_pos hp.pos) h4 a).trans
    (mul_pow_half_of_isSquareMod hp (by omega) h)⟩

theorem rootMod_mul_self_add_modEq_zero {a : Word} (h : ¬ IsSquareMod p.toNat a.toNat) :
    (rootMod a p).toNat * (rootMod a p).toNat + a.toNat ≡ 0 [MOD p.toNat] :=
  ((rootMod_mul_self (word_ne_zero_of_pos hp.pos) h4 a).add_right _).trans
    (mul_pow_half_of_not_isSquareMod hp (by omega) h)

/-- Of all the numbers whose square is `a`, the root is the one that is itself a square. -/
theorem rootMod_modEq {a : Word} {r : Nat} (hr : IsSquareMod p.toNat r) (ha : r * r ≡ a.toNat [MOD p.toNat]) :
    (rootMod a p).toNat ≡ r [MOD p.toNat] := by
  have hexp : 2 * ((p.toNat + 1) / 4) = (p.toNat - 1) / 2 + 1 := by omega
  rw [rootMod_toNat (word_ne_zero_of_pos hp.pos)]
  calc a.toNat ^ ((p.toNat + 1) / 4) % p.toNat
      ≡ a.toNat ^ ((p.toNat + 1) / 4) [MOD p.toNat] := Nat.mod_modEq _ _
    _ ≡ (r * r) ^ ((p.toNat + 1) / 4) [MOD p.toNat] := (ha.pow _).symm
    _ = r * r ^ ((p.toNat - 1) / 2) := by rw [← pow_two, ← pow_mul, hexp, pow_succ']
    _ ≡ r [MOD p.toNat] := mul_pow_half_of_isSquareMod hp (by omega) hr

end Root

/-! ## Joining the two factors -/

theorem primeKey_numbers {s : State} (hs : PrimeKey s) : KeyNumbers s := by
  obtain ⟨hk, hc, -, -⟩ := hs
  exact keyNumbers hk hc

theorem modEq_n_iff {s : State} (hk : KeyNumbers s) {x y : Nat} :
    x ≡ y [MOD s.n.toNat] ↔ x ≡ y [MOD s.p.toNat] ∧ x ≡ y [MOD s.q.toNat] := by
  rw [hk.n, Nat.modEq_and_modEq_iff_modEq_mul hk.coprime]

/-- Every candidate has the square that is `x^2` modulo `P` and `y^2` modulo `Q` (R117 point 1). -/
theorem candidates_mul_self {s : State} (hk : KeyNumbers s) {a c : Word} (hc : c ∈ candidates s a) :
    c.toNat * c.toNat ≡ (rootMod a s.p).toNat * (rootMod a s.p).toNat [MOD s.p.toNat] ∧
      c.toNat * c.toNat ≡ (rootMod a s.q).toNat * (rootMod a s.q).toNat [MOD s.q.toNat] := by
  obtain ⟨c0, c1, c2, c3, hlist, -, ⟨h0p, h0q⟩, ⟨h1p, h1q⟩, ⟨h2p, h2q⟩, h3p, h3q⟩ := candidate_residues hk a
  rw [hlist] at hc
  simp only [List.mem_cons, List.not_mem_nil, or_false] at hc
  rcases hc with rfl | rfl | rfl | rfl
  · exact ⟨h0p.mul h0p, h0q.mul h0q⟩
  · exact ⟨h1p.mul h1p, sq_modEq_of_add_modEq_zero h1q⟩
  · exact ⟨sq_modEq_of_add_modEq_zero h2p, h2q.mul h2q⟩
  · exact ⟨sq_modEq_of_add_modEq_zero h3p, sq_modEq_of_add_modEq_zero h3q⟩

theorem candidates_same_square {s : State} (hk : KeyNumbers s) (a : Word) :
    ∃ z, ∀ c ∈ candidates s a, c.toNat * c.toNat % s.n.toNat = z := by
  obtain ⟨z, hzp, hzq⟩ := Nat.chineseRemainder hk.coprime
    ((rootMod a s.p).toNat * (rootMod a s.p).toNat) ((rootMod a s.q).toNat * (rootMod a s.q).toNat)
  refine ⟨z % s.n.toNat, fun c hc => (modEq_n_iff hk).mpr ?_⟩
  obtain ⟨hp, hq⟩ := candidates_mul_self hk hc
  exact ⟨hp.trans hzp.symm, hq.trans hzq.symm⟩

/-! ## Variant (a): the principal root (R117) -/

/-- `r` is the principal root of `a`: the root below `N` that is itself a square modulo `P` and `Q` (R117 point 4). -/
structure PrincipalRoot (s : State) (a r : Nat) : Prop where
  lt : r < s.n.toNat
  sq : r * r ≡ a [MOD s.n.toNat]
  isSquare_p : IsSquareMod s.p.toNat r
  isSquare_q : IsSquareMod s.q.toNat r

section VariantA
variable {s : State} (hs : PrimeKey s) (hv : s.var = .a)
include hs hv

theorem primeKey_mod_four : s.p.toNat % 4 = 3 ∧ s.q.toNat % 4 = 3 := by
  obtain ⟨hk, hc, -, -⟩ := hs
  obtain ⟨⟨-, -, -, h4, -⟩, -⟩ := key_spec hk hc
  exact h4 hv

theorem qr_iff_isSquareMod (a : Word) :
    qr s a = true ↔ IsSquareMod s.p.toNat a.toNat ∧ IsSquareMod s.q.toNat a.toNat := by
  obtain ⟨hp4, hq4⟩ := primeKey_mod_four hs hv
  have ⟨_, _, hp, hq⟩ := hs
  rw [qr_iff (primeKey_numbers hs), rootMod_mul_self_modEq_iff hp hp4, rootMod_mul_self_modEq_iff hq hq4]

theorem inDomain_iff_isSquareMod (x : Word) :
    InDomain s x ↔ x.toNat < s.n.toNat ∧ IsSquareMod s.p.toNat x.toNat ∧ IsSquareMod s.q.toNat x.toNat := by
  rw [InDomain, qr_iff_isSquareMod hs hv, imp_iff_right hv]

theorem PrincipalRoot.inDomain {a : Nat} {c : Word} (h : PrincipalRoot s a c.toNat) : InDomain s c :=
  (inDomain_iff_isSquareMod hs hv c).mpr ⟨h.lt, h.isSquare_p, h.isSquare_q⟩

theorem PrincipalRoot.residues {a : Word} {r : Nat} (h : PrincipalRoot s a.toNat r) :
    (rootMod a s.p).toNat ≡ r [MOD s.p.toNat] ∧ (rootMod a s.q).toNat ≡ r [MOD s.q.toNat] := by
  obtain ⟨hp4, hq4⟩ := primeKey_mod_four hs hv
  have ⟨_, _, hp, hq⟩ := hs
  obtain ⟨hrp, hrq⟩ := (modEq_n_iff (primeKey_numbers hs)).mp h.sq
  exact ⟨rootMod_modEq hp hp4 h.isSquare_p hrp, rootMod_modEq hq hq4 h.isSquare_q hrq⟩

theorem PrincipalRoot.unique {a : Word} {r c : Nat} (hr : PrincipalRoot s a.toNat r) (hc : PrincipalRoot s a.toNat c) :
    r = c := by
  obtain ⟨hrp, hrq⟩ := hr.residues hs hv
  obtain ⟨hcp, hcq⟩ := hc.residues hs hv
  exact ((modEq_n_iff (primeKey_numbers hs)).mpr ⟨hrp.symm.trans hcp, hrq.symm.trans hcq⟩).eq_of_lt_of_lt hr.lt hc.lt

/-- `inv` of a square is the first candidate, and that is the principal root. -/
theorem inv_principalRoot {a : Word} (hqr : qr s a = true) :
    ∃ c, inv s a = some c ∧ (candidates s (reduce a.toNat s.n)).head? = some c ∧ PrincipalRoot s a.toNat c.toNat := by
  have hk := primeKey_numbers hs
  obtain ⟨c, hinv, hlt, hhead, hcp, hcq⟩ := (invA_spec hk a).1 hqr
  obtain ⟨hrp, hrq⟩ := (qr_iff hk a).mp hqr
  obtain ⟨hap, haq⟩ := (qr_iff_isSquareMod hs hv a).mp hqr
  exact ⟨c, inv_of_a hv a ▸ hinv, hhead, hlt,
    (modEq_n_iff hk).mpr ⟨(hcp.mul hcp).trans hrp, (hcq.mul hcq).trans hrq⟩,
    (isSquareMod_congr hcp).mpr (isSquareMod_rootMod hk.p0 hap),
    (isSquareMod_congr hcq).mpr (isSquareMod_rootMod hk.q0 haq)⟩

theorem inv_eq_none_iff (a : Word) : inv s a = none ↔ qr s a = false := by
  refine ⟨fun hnone => ?_, fun hqr => inv_of_a hv a ▸ (invA_spec (primeKey_numbers hs) a).2 hqr⟩
  by_contra hqr
  obtain ⟨c, hsome, -⟩ := inv_principalRoot hs hv (by simpa using hqr)
  exact Option.some_ne_none c (hsome.symm.trans hnone)

theorem fwd_modEq_mul_self (x : Word) : (fwd s x).toNat ≡ x.toNat * x.toNat [MOD s.n.toNat] := by
  rw [fwd_toNat_a (primeKey_numbers hs).n0 hv, pow_two]
  exact Nat.mod_modEq _ _

theorem qr_fwd (x : Word) : qr s (fwd s x) = true := by
  obtain ⟨hp, hq⟩ := (modEq_n_iff (primeKey_numbers hs)).mp (fwd_modEq_mul_self hs hv x)
  exact (qr_iff_isSquareMod hs hv _).mpr ⟨⟨_, hp.symm⟩, ⟨_, hq.symm⟩⟩

/-- A domain value is the principal root of its forward image, so `inv` answers it. -/
theorem inv_fwd_of_inDomain_a {x : Word} (hx : InDomain s x) : inv s (fwd s x) = some x := by
  obtain ⟨hlt, hp, hq⟩ := (inDomain_iff_isSquareMod hs hv x).mp hx
  obtain ⟨c, hinv, -, hc⟩ := inv_principalRoot hs hv (qr_fwd hs hv x)
  have hroot : PrincipalRoot s (fwd s x).toNat x.toNat := ⟨hlt, (fwd_modEq_mul_self hs hv x).symm, hp, hq⟩
  rw [hinv, BitVec.eq_of_toNat_eq (hc.unique hs hv hroot)]

/-- A domain value is the forward image of its principal root. -/
theorem exists_fwd_eq_a {y : Word} (hy : InDomain s y) : ∃ x, InDomain s x ∧ fwd s x = y := by
  obtain ⟨hlt, hqr⟩ := hy
  obtain ⟨c, -, -, hc⟩ := inv_principalRoot hs hv (hqr hv)
  have hfwd := (fwd_modEq_mul_self hs hv c).trans hc.sq
  exact ⟨c, hc.inDomain hs hv,
    BitVec.eq_of_toNat_eq (hfwd.eq_of_lt_of_lt (fwd_lt (primeKey_numbers hs).n0 c) hlt)⟩

end VariantA

/-- Settles O26: `QRTEST` writes `qr`, which `qr_iff_isSquareMod` reads as squares. -/
theorem qrtestDecidesSquares : Obligations.QrtestDecidesSquares := by
  intro s hs hv
  have ⟨hk, _⟩ := hs
  exact ⟨_, exec_qrtest_of_a hk hv, rfl, qr_iff_isSquareMod hs hv s.a⟩

/-- Settles O27: the root by Euler's criterion, the candidates by their common square, the answer as the principal root. -/
theorem candidatesAgreeWithTheResidueTest : Obligations.CandidatesAgreeWithTheResidueTest := by
  intro s hs hv a cand valid
  have hk := primeKey_numbers hs
  have hroot : ∀ p ∈ [s.p, s.q], p.toNat.Prime ∧ p.toNat % 4 = 3 := by
    obtain ⟨hp4, hq4⟩ := primeKey_mod_four hs hv
    have ⟨_, _, hp, hq⟩ := hs
    simp [hp, hq, hp4, hq4]
  have hvalid : ∀ c ∈ cand, (valid c ↔ qr s a = true) := fun c hc =>
    (modEq_n_iff hk).trans ((square_check_iff hk c a).symm.trans (candidates_validate_iff hk a c hc))
  obtain ⟨c0, hc0⟩ : ∃ c0, c0 ∈ cand := ⟨_, List.mem_cons_self⟩
  refine ⟨fun p hp => ?_, candidates_same_square hk _, ?_, ?_, inv_eq_none_iff hs hv a, fun hqr => ?_⟩
  · obtain ⟨hprime, h4⟩ := hroot p hp
    exact ⟨rootMod_mul_self (word_ne_zero_of_pos hprime.pos) h4 a, (rootMod_mul_self_modEq_iff hprime h4 a).mpr,
      rootMod_mul_self_add_modEq_zero hprime h4⟩
  · by_cases hqr : qr s a = true
    · exact .inl fun c hc => (hvalid c hc).mpr hqr
    · exact .inr fun c hc hval => hqr ((hvalid c hc).mp hval)
  · exact ⟨fun hall => (hvalid c0 hc0).mp (hall c0 hc0), fun hqr c hc => (hvalid c hc).mpr hqr⟩
  · obtain ⟨c, hinv, hhead, hc⟩ := inv_principalRoot hs hv hqr
    obtain ⟨hcp, hcq⟩ := hc.residues hs hv
    exact ⟨c, hinv, hhead, hcp.symm, hcq.symm, hc.isSquare_p, hc.isSquare_q,
      fun r hlt hsq hrp hrq => PrincipalRoot.unique hs hv ⟨hlt, hsq, hrp, hrq⟩ hc⟩

/-- Settles O29: in and outside the domain `inv` of `x^2` is its principal root, which is in the domain. -/
theorem roundTripUnderVariantA : Obligations.RoundTripUnderVariantA := by
  refine fun s hs hv => ⟨fun x hx => inv_fwd_of_inDomain_a hs hv hx, fun x hx => ?_⟩
  obtain ⟨c, hinv, -, hc⟩ := inv_principalRoot hs hv (qr_fwd hs hv x)
  have hdomain := hc.inDomain hs hv
  exact ⟨c, hinv, fun heq => hx (heq ▸ hdomain), hdomain, hc.sq.trans (fwd_modEq_mul_self hs hv x)⟩

/-! ## Variant (b): the two exponents undo each other (R118) -/

section VariantB
variable {s : State} (hs : PrimeKey s) (hv : s.var = .b)
include hs hv

/-- `E * DEXP` is 1 modulo `PHI`; it is not 0, because `PHI` is not 1: that would need `P = Q = 2`. -/
theorem exists_exponent_eq : ∃ j, s.e.toNat * s.dexp.toNat = 1 + (s.p.toNat - 1) * (s.q.toNat - 1) * j := by
  obtain ⟨hk, hc, -, -⟩ := hs
  obtain ⟨⟨hp2, hq2, -, -, hcop, -⟩, hd⟩ := key_spec hk hc
  obtain ⟨-, hmod⟩ := hd.dexp_b hv
  change s.e.toNat * s.dexp.toNat ≡ 1 [MOD _] at hmod
  have hpos : s.e.toNat * s.dexp.toNat ≠ 0 := by
    intro h0
    rw [h0] at hmod
    have hphi := Nat.dvd_one.mp (Nat.modEq_zero_iff_dvd.mp hmod.symm)
    obtain ⟨hp1, hq1⟩ := mul_eq_one.mp hphi
    have hpq : s.p.toNat = 2 ∧ s.q.toNat = 2 := by omega
    rw [hpq.1, hpq.2] at hcop
    exact absurd hcop (by decide)
  obtain ⟨j, hj⟩ := (Nat.modEq_iff_dvd' (by omega)).mp hmod.symm
  exact ⟨j, by omega⟩

theorem pow_exponents_modEq (x : Nat) : x ^ (s.e.toNat * s.dexp.toNat) ≡ x [MOD s.n.toNat] := by
  obtain ⟨j, hj⟩ := exists_exponent_eq hs hv
  have ⟨_, _, hp, hq⟩ := hs
  refine (modEq_n_iff (primeKey_numbers hs)).mpr ⟨?_, ?_⟩
  · rw [hj, mul_assoc]
    exact pow_one_add_modEq_self hp x _
  · rw [hj, mul_comm (s.p.toNat - 1), mul_assoc]
    exact pow_one_add_modEq_self hq x _

theorem invB_fwd_toNat (x : Word) : (invB s (fwd s x)).toNat = x.toNat % s.n.toNat := by
  have hn := (primeKey_numbers hs).n0
  rw [invB_toNat hn, fwd_toNat_b hn hv, ← Nat.pow_mod, ← pow_mul]
  exact pow_exponents_modEq hs hv x.toNat

theorem fwd_invB_toNat (y : Word) : (fwd s (invB s y)).toNat = y.toNat % s.n.toNat := by
  have hn := (primeKey_numbers hs).n0
  rw [fwd_toNat_b hn hv, invB_toNat hn, ← Nat.pow_mod, ← pow_mul, mul_comm]
  exact pow_exponents_modEq hs hv y.toNat

theorem inv_fwd_of_lt_b {x : Word} (hx : x.toNat < s.n.toNat) : inv s (fwd s x) = some x := by
  rw [inv_of_b hv, BitVec.eq_of_toNat_eq ((invB_fwd_toNat hs hv x).trans (Nat.mod_eq_of_lt hx))]

theorem exists_fwd_eq_b {y : Word} (hy : InDomain s y) : ∃ x, InDomain s x ∧ fwd s x = y := by
  obtain ⟨hlt, -⟩ := hy
  have hn := (primeKey_numbers hs).n0
  refine ⟨invB s y, ⟨?_, by simp [hv]⟩, BitVec.eq_of_toNat_eq ?_⟩
  · rw [invB_toNat hn]
    exact Nat.mod_lt _ (word_toNat_pos hn)
  · rw [fwd_invB_toNat hs hv, Nat.mod_eq_of_lt hlt]

end VariantB

/-- Settles O28: both clauses are `invB_fwd_toNat`, the first for an `x` that is its own residue. -/
theorem roundTripUnderVariantB : Obligations.RoundTripUnderVariantB := by
  refine fun s hs hv => ⟨fun x hx => inv_fwd_of_lt_b hs hv hx, fun x => ?_⟩
  rw [inv_of_b hv, word_eq_ofNat (invB_fwd_toNat hs hv x)]

/-! ## The forward step permutes the domain (R118) -/

section Domain
variable {s : State} (hs : PrimeKey s)
include hs

theorem fwd_inDomain (x : Word) : InDomain s (fwd s x) :=
  ⟨fwd_lt (primeKey_numbers hs).n0 x, fun hv => qr_fwd hs hv x⟩

theorem inv_fwd_of_inDomain {x : Word} (hx : InDomain s x) : inv s (fwd s x) = some x := by
  rcases hv : s.var with _ | _
  · exact inv_fwd_of_inDomain_a hs hv hx
  · exact inv_fwd_of_lt_b hs hv hx.1

theorem exists_fwd_eq {y : Word} (hy : InDomain s y) : ∃ x, InDomain s x ∧ fwd s x = y := by
  rcases hv : s.var with _ | _
  · exact exists_fwd_eq_a hs hv hy
  · exact exists_fwd_eq_b hs hv hy

end Domain

/-- Settles O30: one-to-one because `inv` undoes the step, onto by `exists_fwd_eq`. -/
theorem forwardStepPermutesTheDomain : Obligations.ForwardStepPermutesTheDomain := by
  refine fun s hs => ⟨fun x _ => fwd_inDomain hs x, fun x y hx hy heq => ?_, fun y hy => exists_fwd_eq hs hy⟩
  have hinv := inv_fwd_of_inDomain hs hx
  rw [heq, inv_fwd_of_inDomain hs hy] at hinv
  exact (Option.some.inj hinv).symm

end Sys2Proof.Machine
end

section
/-!
SUPPORT. The family of 43_predicate.md: `PRED` writes the parity of the ones of `A` (R130, R131), and that parity is additive
(R132).
-/

namespace Sys2Proof.Machine

open Sys2Proof.Safety

theorem popcount_eq_card (x : Word) : popcount x = ((Finset.range 32).filter fun k => x.getLsbD k = true).card := by
  have hfilter : (List.range 32).filter (fun k => x.getLsbD k) =
      (List.range 32).filter fun k => decide (x.getLsbD k = true) :=
    List.filter_congr fun k _ => Bool.decide_eq_true.symm
  rw [popcount, hfilter]
  rfl

theorem parity32_eq_popcount (x : Word) : parity32 x = decide (popcount x % 2 = 1) := by
  rw [parity32, xorBits_eq_card, popcount_eq_card]

theorem parity32_xor (x y : Word) : parity32 (x ^^^ y) = Bool.xor (parity32 x) (parity32 y) :=
  xorBits_xor x y 32

theorem parity32_bit {k : Nat} (hk : k < 32) : parity32 (Word.bit k) = true :=
  (xorBits_bit k 32 hk).trans (decide_eq_true hk)

theorem exec_pred (s : State) : exec .pred s = .next (complete { s with flag := parity32 s.a }) := rfl

theorem execPred_flag {s t : State} (h : exec .pred s = .next t) : t.flag = parity32 s.a := by
  rw [execPred_cases h, complete_flag]

/-- Settles O17: the exclusive or of the bits of `A` is the parity of their number. -/
theorem predWritesTheParityOfTheOnes : Obligations.PredWritesTheParityOfTheOnes := by
  refine ⟨rfl, fun s => ?_⟩
  rw [← parity32_eq_popcount, exec_pred, complete]

/-- Settles O18: `FLAG` is `parity32` of `A`, `parity32` is additive, and of a single bit it is 1. -/
theorem predicateIsAdditive : Obligations.PredicateIsAdditive := by
  refine ⟨fun s s' t t' ha ht ht' => ?_, parity32_xor, fun x k hk => ?_⟩
  · rw [execPred_flag ht, execPred_flag ht', ha]
  · calc parity32 (x ^^^ Word.bit k)
        = Bool.xor (parity32 x) (parity32 (Word.bit k)) := parity32_xor x (Word.bit k)
      _ = Bool.xor (parity32 x) true := by rw [parity32_bit hk]
      _ = !parity32 x := Bool.xor_true _

end Sys2Proof.Machine
end

section
/-!
SUPPORT. The family of 44_codec.md: what `ENCODE` publishes (R136), how `DECODE` ends (R138), and what follows from them
(R140, R142, R143). A result about a member or a rejection names the chain of passed steps (`DecodeChain`) behind it.
-/

namespace Sys2Proof.Machine

open Sys2Proof.Safety

/-! ## ENCODE (R136) -/

/-- The 31st iterate of the seed is published, and the predicate bit of each iterate, the oldest in bit 31. -/
theorem exec_encode_orbit {s : State} (hk : s.keyv = true) :
    ∃ w : Word, (∀ i < 32, w.getLsbD (31 - i) = parity32 ((fwd s)^[i] s.x0)) ∧
      exec .encode s = .next
        { s with
          cwX := (fwd s)^[31] s.x0, cwP := w, cur := (fwd s)^[31] s.x0, stepReg := 32#32
          cwvx := true, cwvp := true, errcode := 0#8, done := true } := by
  refine ⟨_, fun i hi => encodeLoop_pField (fwd s) s.x0 i hi, ?_⟩
  rw [← encodeLoop_cur]
  exact exec_encode_of_key hk

/-- Settles O32: with a key the orbit, without one the whole effect of `NoKey`. -/
theorem encodeRecordsTheOrbit : Obligations.EncodeRecordsTheOrbit :=
  ⟨rfl, fun _ hk => exec_encode_orbit hk, fun s hk => (exec_of_no_key rfl hk).trans (by rw [raise_noKey_eq]; rfl)⟩

/-! ## DECODE (R138) -/

theorem decodeChain_zero_iff {g : Word → Option Word} {w : Word} {c : Nat → Word} {m : Nat} :
    DecodeChain g w 0 c m ↔ ∀ i < m, parity32 (c i) = w.getLsbD i ∧ g (c i) = some (c (i + 1)) := by
  simp only [DecodeChain, Nat.zero_add]

/-- A passed check whose value has an inverse goes on from the inverse. -/
theorem decodeLoop_passes {g : Word → Option Word} {w : Word} {k j : Nat} {x y : Word}
    (h : parity32 x = w.getLsbD j) (hg : g x = some y) :
    decodeLoop g w (k + 1) j x = decodeLoop g w k (j + 1) y := by
  rw [decodeLoop, if_pos h, hg]

section Outcomes
variable {s : State} (hk : s.keyv = true) (hx : s.cwvx = true) (hp : s.cwvp = true)
  {c : Nat → Word} {m : Nat} (h0 : c 0 = s.cwX) (hc : DecodeChain (inv s) s.cwP 0 c m)
include hk hx hp h0 hc

/-- Along a chain of passed steps `DECODE` comes to the chain's last value, with the remaining steps to go. -/
theorem exec_decode_of_chain {k : Nat} (hmk : m + k = 32) :
    exec .decode s =
      .next (decodeCommit { s with cwvx := false, cwvp := false } (decodeLoop (inv s) s.cwP k m (c m))) := by
  rw [exec_decode_of_valid hk hx hp, Config.K, ← hmk, ← h0, decodeLoop_chain k m 0 c hc, Nat.zero_add]

theorem exec_decode_member (hm : m = 32) :
    exec .decode s = .next
      { s with
        flag := true, stepReg := 32#32, cur := c 32, cwvx := false, cwvp := false, errcode := 0#8, done := true } := by
  subst hm
  exact exec_decode_of_chain hk hx hp h0 hc (k := 0) rfl

theorem exec_decode_rejected (hm : m < 32) (hpar : parity32 (c m) ≠ s.cwP.getLsbD m) :
    exec .decode s = .next
      { s with
        flag := false, stepReg := BitVec.ofNat 32 m, cur := c m, cwvx := false, cwvp := false
        errcode := 0#8, done := true } := by
  obtain ⟨k, hmk⟩ : ∃ k, m + (k + 1) = 32 := ⟨31 - m, by omega⟩
  rw [exec_decode_of_chain hk hx hp h0 hc hmk, decodeLoop_rejects hpar]
  rfl

theorem exec_decode_inversionFailed (hm : m < 32) (hpar : parity32 (c m) = s.cwP.getLsbD m)
    (hinv : inv s (c m) = none) :
    exec .decode s = .next
      { s with
        flag := false, stepReg := BitVec.ofNat 32 (m + 1), cur := c m, cwvx := false, cwvp := false
        errcode := 3#8, errlog := s.errlog ||| 0x4#32, done := true } := by
  obtain ⟨k, hmk⟩ : ∃ k, m + (k + 1) = 32 := ⟨31 - m, by omega⟩
  rw [exec_decode_of_chain hk hx hp h0 hc hmk, decodeLoop_fails hpar hinv]
  rfl

end Outcomes

/-- The values inversion leads through, each repeated where it has no inverse. -/
def inversionOrbit (g : Word → Option Word) (x : Word) (i : Nat) : Word := (fun y => (g y).getD y)^[i] x

theorem inversionOrbit_succ {g : Word → Option Word} {x y : Word} {i : Nat} (h : g (inversionOrbit g x i) = some y) :
    g (inversionOrbit g x i) = some (inversionOrbit g x (i + 1)) := by
  rw [h, inversionOrbit, Function.iterate_succ_apply', ← inversionOrbit, h, Option.getD_some]

/-- Of at most `k` steps the decoder passes all, or it stops at a first one that it does not pass. -/
theorem exists_decodeChain (g : Word → Option Word) (w x : Word) (k : Nat) :
    ∃ m ≤ k, DecodeChain g w 0 (inversionOrbit g x) m ∧
      (m = k ∨ parity32 (inversionOrbit g x m) ≠ w.getLsbD m ∨ g (inversionOrbit g x m) = none) := by
  induction k with
  | zero => exact ⟨0, le_rfl, fun i hi => absurd hi (Nat.not_lt_zero i), .inl rfl⟩
  | succ k ih =>
    obtain ⟨m, hm, hc, rfl | hend⟩ := ih
    · by_cases hpar : parity32 (inversionOrbit g x m) = w.getLsbD m
      · rcases hg : g (inversionOrbit g x m) with _ | y
        · exact ⟨m, by omega, hc, .inr (.inr hg)⟩
        · refine ⟨m + 1, le_rfl, decodeChain_zero_iff.mpr fun i hi => ?_, .inl rfl⟩
          rcases Nat.lt_succ_iff_lt_or_eq.mp hi with hlt | rfl
          · exact decodeChain_zero_iff.mp hc i hlt
          · exact ⟨hpar, inversionOrbit_succ hg⟩
      · exact ⟨m, by omega, hc, .inr (.inl hpar)⟩
    · exact ⟨m, by omega, hc, .inr hend⟩

/-- Settles O33: the two refusals, the three ends of a chain, and the chain there always is. -/
theorem decodeEndsInOneOfItsOutcomes : Obligations.DecodeEndsInOneOfItsOutcomes := by
  refine ⟨rfl, fun s hk => ?_, fun s hk hcw => exec_decode_of_incomplete hk hcw,
    fun s hk hx hp c m h0 _ hchain => ?_, fun s => ?_, fun s x hv => ?_⟩
  · rw [exec_of_no_key rfl hk, raise_noKey_eq]
    rfl
  · have hc := decodeChain_zero_iff.mpr hchain
    exact ⟨exec_decode_member hk hx hp h0 hc, exec_decode_rejected hk hx hp h0 hc,
      exec_decode_inversionFailed hk hx hp h0 hc⟩
  · obtain ⟨m, hm, hc, hend⟩ := exists_decodeChain (inv s) s.cwP s.cwX 32
    exact ⟨_, m, rfl, hm, decodeChain_zero_iff.mp hc, hend⟩
  · rw [inv_of_b hv]
    exact Option.some_ne_none _

/-! ## ENCODE and then DECODE (R140, R220) -/

/-- The inverse reads the key alone. -/
theorem SameKey.inv_eq {s t : State} (h : SameKey s t) : inv t = inv s := by
  obtain ⟨hp, hq, -, hd, hvar, -⟩ := h
  simp only [derivedKey, DerivedKey.mk.injEq] at hd
  obtain ⟨hn, -, hC, hD, hdexp⟩ := hd
  exact inv_congr hvar hn (fun _ => hdexp) fun _ => ⟨hp, hq, hC, hD⟩

/-- What `DECODE` finds after an `ENCODE`: the orbit of the seed, backwards in the order of its checks. -/
theorem exists_exec_encode {s : State} (hk : s.keyv = true) :
    ∃ t, exec .encode s = .next t ∧ t.keyv = true ∧ t.cwvx = true ∧ t.cwvp = true ∧ inv t = inv s ∧
      t.cwX = (fwd s)^[31] s.x0 ∧ ∀ i < 32, parity32 ((fwd s)^[31 - i] s.x0) = t.cwP.getLsbD i := by
  obtain ⟨w, hw, henc⟩ := exec_encode_orbit hk
  refine ⟨_, henc, hk, rfl, rfl, (exec_sameKey henc (by decide)).inv_eq, rfl, fun i hi => ?_⟩
  rw [← hw (31 - i) (by omega), Nat.sub_sub_self (by omega)]

section StandIn
variable {s : State} (hs : PrimeKey s)
include hs

theorem iterate_fwd_inDomain {y : Word} (hy : InDomain s y) (k : Nat) : InDomain s ((fwd s)^[k] y) :=
  Function.Iterate.rec (InDomain s) hy (fun x _ => fwd_inDomain hs x) k

/-- Every seed has a stand-in in the domain with the same forward image; `inv` finds it and its preimage. -/
theorem exists_standIn (x : Word) :
    ∃ z y, fwd s z = fwd s x ∧ fwd s y = z ∧ InDomain s y ∧ inv s (fwd s x) = some z ∧ inv s z = some y := by
  obtain ⟨z, hz, hzx⟩ := exists_fwd_eq hs (fwd_inDomain hs x)
  obtain ⟨y, hy, rfl⟩ := exists_fwd_eq hs hz
  exact ⟨_, y, hzx, rfl, hy, hzx ▸ inv_fwd_of_inDomain hs hz, inv_fwd_of_inDomain hs hy⟩

/-- The decoder walks the orbit of a domain value backwards, as far as the p field has its parities. -/
theorem decodeChain_of_orbit {y w : Word} {m : Nat} (hy : InDomain s y) (hm : m ≤ 32)
    (hpar : ∀ i < m, parity32 ((fwd s)^[32 - i] y) = w.getLsbD i) :
    DecodeChain (inv s) w 0 (fun i => (fwd s)^[32 - i] y) m := by
  refine decodeChain_zero_iff.mpr fun i hi => ⟨hpar i hi, ?_⟩
  rw [show 32 - i = (32 - (i + 1)) + 1 by omega, Function.iterate_succ_apply']
  exact inv_fwd_of_inDomain hs (iterate_fwd_inDomain hs hy _)

end StandIn

/-- Two steps on from a preimage of `z`, the orbit is that of any `x` with the forward image of `z`, one step on. -/
theorem iterate_add_two_eq {f : Word → Word} {x y z : Word} (hyz : f y = z) (hzx : f z = f x) (k : Nat) :
    f^[k + 2] y = f^[k + 1] x := by
  rw [Function.iterate_succ_apply, hyz, Function.iterate_succ_apply, hzx, Function.iterate_succ_apply]

/-- Settles O36: the decoder walks the stand-in's orbit back, which is the seed's but for the stand-in at check 31. -/
theorem seedOutsideTheDomainIsJudgedByParity : Obligations.SeedOutsideTheDomainIsJudgedByParity := by
  intro s hs
  have ⟨hk, _⟩ := hs
  obtain ⟨z, y, hzx, hyz, hy, hz, hinvz⟩ := exists_standIn hs s.x0
  obtain ⟨t, henc, hkt, hvx, hvp, hinv, hX, hP⟩ := exists_exec_encode hk
  have hstart : (fwd s)^[32] y = t.cwX := (iterate_add_two_eq hyz hzx 30).trans hX.symm
  have hpar : ∀ i < 31, parity32 ((fwd s)^[32 - i] y) = t.cwP.getLsbD i := by
    intro i hi
    rw [← hP i (by omega), show 32 - i = 30 - i + 2 by omega, show 31 - i = 30 - i + 1 by omega,
      iterate_add_two_eq hyz hzx]
  have hlast : parity32 s.x0 = t.cwP.getLsbD 31 := hP 31 (by decide)
  by_cases hzp : parity32 z = parity32 s.x0
  · have hall : ∀ i < 32, parity32 ((fwd s)^[32 - i] y) = t.cwP.getLsbD i := by
      intro i hi
      rcases Nat.lt_succ_iff_lt_or_eq.mp hi with hlt | rfl
      · exact hpar i hlt
      · exact (congrArg parity32 hyz).trans (hzp.trans hlast)
    have hchain := hinv ▸ decodeChain_of_orbit hs hy le_rfl hall
    exact ⟨z, y, t, _, hz, hinvz, henc, exec_decode_member hkt hvx hvp hstart hchain rfl, rfl,
      fun _ => ⟨rfl, rfl, rfl⟩, fun hne => absurd hzp hne⟩
  · have hchain := hinv ▸ decodeChain_of_orbit hs hy (by decide) hpar
    have hfail : parity32 (fwd s y) ≠ t.cwP.getLsbD 31 := by rwa [hyz, ← hlast]
    exact ⟨z, y, t, _, hz, hinvz, henc, exec_decode_rejected hkt hvx hvp hstart hchain (by decide) hfail, rfl,
      fun heq => absurd heq hzp, fun _ => ⟨rfl, rfl, hyz⟩⟩

/-- Settles O35: a seed in the domain is its own stand-in. -/
theorem encodedSeedDecodesAsMember : Obligations.EncodedSeedDecodesAsMember := by
  intro s hs hx0
  obtain ⟨z, y, t, u, hz, hy, henc, hdec, hcode, hmember, -⟩ := seedOutsideTheDomainIsJudgedByParity s hs
  obtain rfl : s.x0 = z := Option.some.inj ((inv_fwd_of_inDomain hs hx0).symm.trans hz)
  obtain ⟨hflag, hstep, hcur⟩ := hmember rfl
  exact ⟨t, u, henc, hdec, hflag, hstep, hcode, hcur ▸ hy⟩

/-! ## Fixed points, and x fields that decode alike (R142) -/

theorem rootMod_of_idempotent {p x : Word} (h4 : p.toNat % 4 = 3) (hx : IsIdempotentElem x.toNat) :
    (rootMod x p).toNat ≡ x.toNat [MOD p.toNat] := by
  rw [rootMod_toNat (word_ne_zero_of_pos (by omega)), hx.pow_eq (by omega)]
  exact Nat.mod_modEq _ _

section FixedPoints
variable {s : State} (hk : s.keyv = true) (hc : KeyConsistent s)
include hk hc

/-- `P` and `Q` are coprime, so one of them is odd and `PHI` is even; `DEXP`, being invertible modulo `PHI`, is odd. -/
theorem dexp_odd (hv : s.var = .b) : Odd s.dexp.toNat := by
  obtain ⟨⟨hp2, hq2, -, -, hcop, -⟩, hd⟩ := key_spec hk hc
  obtain ⟨-, hmul⟩ := hd.dexp_b hv
  have hphi : 2 ∣ (s.p.toNat - 1) * (s.q.toNat - 1) := by
    rcases Nat.mod_two_eq_zero_or_one s.p.toNat with hp | hp
    · have hq : s.q.toNat % 2 ≠ 0 := fun hq =>
        Nat.not_coprime_of_dvd_of_dvd one_lt_two (Nat.dvd_of_mod_eq_zero hp) (Nat.dvd_of_mod_eq_zero hq) hcop
      exact Dvd.dvd.mul_left (by omega) _
    · exact Dvd.dvd.mul_right (by omega) _
  exact (Nat.odd_mul.mp (Nat.odd_iff.mpr (hmul.of_dvd hphi))).2

/-- 0 and 1 are their own powers, so they are their own inverse images; under variant (a) as roots modulo `P` and `Q`. -/
theorem inv_of_idempotent {x : Word} (hlt : x.toNat < s.n.toNat) (hx : IsIdempotentElem x.toNat) :
    inv s x = some x := by
  have hn := keyNumbers hk hc
  rcases hv : s.var with _ | _
  · obtain ⟨⟨-, -, -, h4, -⟩, -⟩ := key_spec hk hc
    obtain ⟨hp4, hq4⟩ := h4 hv
    have hrp := rootMod_of_idempotent hp4 hx
    have hrq := rootMod_of_idempotent hq4 hx
    have hqr : qr s x = true :=
      (qr_iff hn x).mpr ⟨(hrp.mul hrp).trans (congrArg (· % _) hx), (hrq.mul hrq).trans (congrArg (· % _) hx)⟩
    obtain ⟨c, hinv, hclt, -, hcp, hcq⟩ := (invA_spec hn x).1 hqr
    have hcx := ((modEq_n_iff hn).mpr ⟨hcp.trans hrp, hcq.trans hrq⟩).eq_of_lt_of_lt hclt hlt
    rw [inv_of_a hv, hinv, BitVec.eq_of_toNat_eq hcx]
  · rw [inv_of_b hv, Option.some_inj]
    apply BitVec.eq_of_toNat_eq
    rw [invB_toNat hn.n0, hx.pow_eq (dexp_odd hk hc hv).pos.ne', Nat.mod_eq_of_lt hlt]

/-- `N - 1` is -1 modulo `N`, and an odd power of -1 is -1. -/
theorem inv_n_sub_one (hv : s.var = .b) : inv s (s.n - 1#32) = some (s.n - 1#32) := by
  have hn := (keyNumbers hk hc).n0
  have hpos := word_toNat_pos hn
  have hsub : (s.n - 1#32).toNat = s.n.toNat - 1 := BitVec.toNat_sub_of_le hpos
  have hpow : (s.n.toNat - 1) ^ s.dexp.toNat ≡ s.n.toNat - 1 [MOD s.n.toNat] := by
    rw [← ZMod.natCast_eq_natCast_iff, Nat.cast_pow, Nat.cast_pred hpos, ZMod.natCast_self, zero_sub,
      (dexp_odd hk hc hv).neg_one_pow]
  rw [inv_of_b hv, Option.some_inj]
  apply BitVec.eq_of_toNat_eq
  rw [invB_toNat hn, hsub]
  exact Nat.mod_eq_of_modEq hpow (by omega)

end FixedPoints

/-- A fixed point of the inverse, with its parity in every bit of the p field, is a member. -/
theorem exec_decode_fixedPoint {s : State} {x : Word} (hk : s.keyv = true) (hvx : s.cwvx = true) (hvp : s.cwvp = true)
    (hx : s.cwX = x) (hp : s.cwP = if parity32 x then 0xFFFFFFFF#32 else 0#32) (hinv : inv s x = some x) :
    ∃ t, exec .decode s = .next t ∧ t.flag = true ∧ t.stepReg = 32#32 ∧ t.cur = x ∧ t.errcode = 0#8 := by
  have hbit : ∀ i < 32, parity32 x = s.cwP.getLsbD i := by
    rw [hp]
    cases parity32 x <;> decide
  have hchain : DecodeChain (inv s) s.cwP 0 (fun _ => x) 32 := decodeChain_zero_iff.mpr fun i hi => ⟨hbit i hi, hinv⟩
  exact ⟨_, exec_decode_member hk hvx hvp hx.symm hchain rfl, rfl, rfl, rfl, rfl⟩

/-- What the host reads of a `DECODE` in `STATUS` and `STEP` is the same after both. -/
def SameAnswer (t t' : State) : Prop := t'.flag = t.flag ∧ t'.stepReg = t.stepReg ∧ t'.errcode = t.errcode

theorem decodeCommit_sameAnswer (s s' : State) (d : DecodeEnd) : SameAnswer (decodeCommit s d) (decodeCommit s' d) := by
  cases d <;> exact ⟨rfl, rfl, rfl⟩

/-- From two values with one parity and one inverse the loops end alike, but for the value held at step `j`. -/
theorem decodeLoop_sameAnswer (s s' : State) {g : Word → Option Word} {w x x' : Word} (k j : Nat)
    (hpar : parity32 x' = parity32 x) (hg : g x' = g x) :
    SameAnswer (decodeCommit s (decodeLoop g w (k + 1) j x)) (decodeCommit s' (decodeLoop g w (k + 1) j x')) := by
  by_cases h : parity32 x = w.getLsbD j
  · rcases hgx : g x with _ | y
    · rw [decodeLoop_fails h hgx, decodeLoop_fails (hpar.trans h) (hg.trans hgx)]
      exact ⟨rfl, rfl, rfl⟩
    · rw [decodeLoop_passes h hgx, decodeLoop_passes (hpar.trans h) (hg.trans hgx)]
      exact decodeCommit_sameAnswer s s' _
  · rw [decodeLoop_rejects h, decodeLoop_rejects (hpar ▸ h)]
    exact ⟨rfl, rfl, rfl⟩

/-- Two x fields with one parity and one inverse get the same answer from `DECODE`. -/
theorem decode_sameAnswer {s : State} {x : Word} (hpar : parity32 x = parity32 s.cwX) (hinv : inv s x = inv s s.cwX) :
    NextRelated SameAnswer (exec .decode s) (exec .decode { s with cwX := x }) := by
  have hinv_eq : inv { s with cwX := x } = inv s := SameKey.inv_eq (SameKey.refl s)
  rw [exec, exec, execDecode, execDecode, hinv_eq]
  exact nextRelated_withKey rfl ⟨rfl, rfl, rfl⟩
    (nextRelated_ite (nextRelated_next (decodeLoop_sameAnswer _ _ 31 0 hpar hinv)) (nextRelated_next ⟨rfl, rfl, rfl⟩))

/-- Settles O37: 0, 1 and `N - 1` are fixed by the inverse; adding `N` to the x field keeps its residue. -/
theorem fixedPointsAndAliasesOfTheDecoder : Obligations.FixedPointsAndAliasesOfTheDecoder := by
  refine ⟨fun s hk hc hvx hvp hx hp => ?_, fun s hk hc hvx hvp hx hp => ?_,
    fun s hk hc hv _ hvx hvp hx hp => exec_decode_fixedPoint hk hvx hvp hx hp (inv_n_sub_one hk hc hv),
    fun s t t' hk hc hlt hpar h h' => ?_⟩
  · have hn := word_toNat_pos (keyNumbers hk hc).n0
    exact exec_decode_fixedPoint hk hvx hvp hx hp (inv_of_idempotent hk hc hn .zero)
  · have hn := keyNumbers hk hc
    have hlt : 1 < s.n.toNat := by
      rw [hn.n]
      exact one_lt_mul'' hn.p_two hn.q_two
    exact exec_decode_fixedPoint hk hvx hvp hx hp (inv_of_idempotent hk hc hlt .one)
  · have hmod : (s.cwX + s.n).toNat ≡ s.cwX.toNat [MOD s.n.toNat] := by
      rw [BitVec.toNat_add_of_lt hlt]
      exact Nat.add_modEq_right
    obtain ⟨-, hinv, -⟩ := operandsAreReducedModuloN s _ _ hk hc hmod
    exact decode_sameAnswer hpar hinv t t' h h'

/-! ## One p field at most (R143) -/

theorem decodeLoop_succ_member {g : Word → Option Word} {w x c : Word} {k j : Nat}
    (h : decodeLoop g w (k + 1) j x = .member c) :
    parity32 x = w.getLsbD j ∧ ∃ y, g x = some y ∧ decodeLoop g w k (j + 1) y = .member c := by
  by_cases hpar : parity32 x = w.getLsbD j
  · rcases hg : g x with _ | y
    · rw [decodeLoop_fails hpar hg] at h
      cases h
    · rw [decodeLoop_passes hpar hg] at h
      exact ⟨hpar, y, rfl, h⟩
  · rw [decodeLoop_rejects hpar] at h
    cases h

/-- The bits that the loop checks are the parities of values that the p field has no part in. -/
theorem getLsbD_eq_of_member {g : Word → Option Word} {w w' c c' : Word} {k j : Nat} {x : Word}
    (h : decodeLoop g w k j x = .member c) (h' : decodeLoop g w' k j x = .member c') :
    ∀ i < k, w.getLsbD (j + i) = w'.getLsbD (j + i) := by
  induction k generalizing j x with
  | zero => exact fun i hi => absurd hi (Nat.not_lt_zero i)
  | succ k ih =>
    obtain ⟨hpar, y, hg, hrest⟩ := decodeLoop_succ_member h
    obtain ⟨hpar', y', hg', hrest'⟩ := decodeLoop_succ_member h'
    obtain rfl : y = y' := Option.some.inj (hg.symm.trans hg')
    intro i hi
    cases i with
    | zero => exact hpar.symm.trans hpar'
    | succ i =>
      rw [show j + (i + 1) = j + 1 + i by omega]
      exact ih hrest hrest' i (by omega)

/-- Settles O38: two accepted p fields agree in all 32 bits. -/
theorem decoderAcceptsAtMostOnePredicateField : Obligations.DecoderAcceptsAtMostOnePredicateField := by
  intro s t t' w w' h h' hf hf'
  have hinv (v : Word) : inv { s with cwP := v } = inv s := SameKey.inv_eq (SameKey.refl s)
  obtain ⟨-, -, -, c, hm⟩ := (decode_flag h).1.mp hf
  obtain ⟨-, -, -, c', hm'⟩ := (decode_flag h').1.mp hf'
  rw [hinv] at hm hm'
  exact BitVec.eq_of_getLsbD_eq fun i hi => by simpa using getLsbD_eq_of_member hm hm' i hi

end Sys2Proof.Machine
end

section
/-!
SUPPORT. The family of 45_system.md: what `NOP` (R160) and `SRESET` (R161) do to any state.
-/

namespace Sys2Proof.Machine

open Sys2Proof.Safety

theorem exec_nop (s : State) : exec .nop s = .next (complete s) := rfl

theorem exec_sreset (s : State) : exec .sreset s = .next (resetAll s) := rfl

/-- The reset input takes its own event off the host's list; what the host has read is kept (R210). -/
theorem resetAll_setPending (rest : List PortEvent) (s : State) :
    resetAll (setPending rest s) = { State.reset with pending := rest, returned := s.returned } := rfl

/-- The word of `SRESET` with the VAR bit set, which only `KEYLOAD` may have, is no command (R61, R188). -/
theorem sresetWordWithVarBit_not_legal : 0x0000017F#32 ∉ legalWords := by decide

/-- Settles O14: `NOP` only completes (R69). -/
theorem nopOnlyCompletes : Obligations.NopOnlyCompletes := by
  refine ⟨rfl, fun s => ?_⟩
  rw [exec_nop, complete]

/-- Settles O2: `SRESET` and the reset input both end in `resetAll`, and 0x17F is one of the words of R64 that are not
legal. -/
theorem sresetAndResetInputGiveTheResetState : Obligations.SresetAndResetInputGiveTheResetState := by
  obtain ⟨-, illegalWord⟩ := otherWordsRaiseIllegalCommand
  refine ⟨fun s => ?_, fun s rest hp => ?_, fun s rest hp => ?_⟩
  · rw [exec_sreset, resetAll]
  · rw [step_resetInput hp, resetAll_setPending]
  · exact illegalWord s _ rest hp sresetWordWithVarBit_not_legal

end Sys2Proof.Machine
end

section
/-!
SUPPORT. The family of 49_boundary_collaborators.md, all of it on the host's side: the plaintext bit taken from `STATUS`
(R173), trial division (R167), the symmetric mode (R174).
-/

namespace Sys2Proof.Machine

/-! ## The plaintext bit of a block (R173) -/

/-- What the host takes from `STATUS`, in terms of the registers behind it. -/
theorem plaintextBit_statusWord (s : State) :
    plaintextBit (statusWord s) =
      if s.errcode = 0#8 then some s.flag
      else if s.errcode = ErrorKind.inversionFailed.errcode then some Config.invfailBit
      else none := by
  obtain ⟨-, -, hflag, -, -, -, -, -, hcode, -⟩ := statusIsAssembledFromTheFlags s
  rw [plaintextBit, hflag, hcode]

/-- The decoder's loop ends with code 0 or with code 3. -/
theorem plaintextBit_decodeCommit (s : State) (d : DecodeEnd) :
    plaintextBit (statusWord (decodeCommit s d)) =
      some (if (decodeCommit s d).errcode = 3#8 then Config.invfailBit else (decodeCommit s d).flag) := by
  rw [plaintextBit_statusWord]
  cases d with
  | member | rejected | inversionFailed => rfl

/-- Settles O55: a `DECODE` that consumes its block ends as its loop does. -/
theorem plaintextBitComesFromStatus : Obligations.PlaintextBitComesFromStatus := by
  intro s t hk hx hp h
  rw [exec_decode_of_valid hk hx hp] at h
  injection h with h
  exact h ▸ plaintextBit_decodeCommit _ _

/-! ## Trial division (R167) -/

/-- The test of a round, which `isPrime` itself makes with 2 and 3. -/
theorem factorTest_iff {n a b : Nat} : (n % a = 0 || n % b = 0) = true ↔ a ∣ n ∨ b ∣ n := by
  simp [Nat.dvd_iff_mod_eq_zero]

theorem not_prime_of_dvd_or_dvd {n a b : Nat} (h : a ∣ n ∨ b ∣ n) (ha : 2 ≤ a) (hab : a ≤ b) (hb : b < n) :
    ¬ n.Prime := by
  rcases h with h | h
  · exact Nat.not_prime_of_dvd_of_lt h ha (by omega)
  · exact Nat.not_prime_of_dvd_of_lt h (by omega) hb

theorem not_dvd_minFac {d n : Nat} (h : ¬ d ∣ n) : ¬ d ∣ n.minFac := fun hd => h (hd.trans n.minFac_dvd)

/-- Of six candidates in a row the wheel tries the only two that can be the least factor of a number coprime to 6. -/
theorem add_six_le_minFac {n i : Nat} (h2 : ¬ 2 ∣ n) (h3 : ¬ 3 ∣ n) (hi : i % 6 = 5) (hle : i ≤ n.minFac)
    (hfst : ¬ i ∣ n) (hsnd : ¬ (i + 2) ∣ n) : i + 6 ≤ n.minFac := by
  have hne : n.minFac ≠ i := fun h => hfst (h ▸ n.minFac_dvd)
  have hne' : n.minFac ≠ i + 2 := fun h => hsnd (h ▸ n.minFac_dvd)
  have hodd := not_dvd_minFac h2
  have hthree := not_dvd_minFac h3
  omega

theorem five_le_minFac {n : Nat} (hn : n ≠ 1) (h2 : ¬ 2 ∣ n) (h3 : ¬ 3 ∣ n) : 5 ≤ n.minFac := by
  have htwo := (Nat.minFac_prime hn).two_le
  have hodd := not_dvd_minFac h2
  have hthree := not_dvd_minFac h3
  omega

theorem prime_of_lt_mul_self {n i : Nat} (hn : 0 < n) (hle : i ≤ n.minFac) (h : n < i * i) : n.Prime := by
  by_contra hp
  refine absurd h (Nat.not_lt.mpr ?_)
  calc i * i ≤ n.minFac * n.minFac := Nat.mul_le_mul hle hle
    _ = n.minFac ^ 2 := (sq _).symm
    _ ≤ n := Nat.minFac_sq_le_self hn hp

/-- The wheel decides primality from a candidate on that no factor lies below, when its rounds reach the square root. -/
theorem wheelLoop_eq_true_iff {n : Nat} (h2 : ¬ 2 ∣ n) (h3 : ¬ 3 ∣ n) (k : Nat) {i : Nat} (hi : i % 6 = 5)
    (hle : i ≤ n.minFac) (hfuel : n < (i + 6 * k) * (i + 6 * k)) : wheelLoop n k i = true ↔ n.Prime := by
  have hn : 0 < n := Nat.pos_of_ne_zero (by rintro rfl; exact h2 (dvd_zero 2))
  induction k generalizing i with
  | zero => exact iff_of_true rfl (prime_of_lt_mul_self hn hle hfuel)
  | succ k ih =>
    rw [wheelLoop]
    split
    case isTrue hlt => exact iff_of_true rfl (prime_of_lt_mul_self hn hle hlt)
    case isFalse hge =>
      split
      case isTrue hdvd =>
        have hlt : i + 2 < n := by nlinarith [show 5 ≤ i by omega]
        exact iff_of_false Bool.false_ne_true
          (not_prime_of_dvd_or_dvd (factorTest_iff.mp hdvd) (by omega) (by omega) hlt)
      case isFalse hdvd =>
        obtain ⟨hfst, hsnd⟩ := not_or.mp (mt factorTest_iff.mpr hdvd)
        refine ih (by omega) (add_six_le_minFac h2 h3 hi hle hfst hsnd) ?_
        rwa [show i + 6 + 6 * k = i + 6 * (k + 1) by omega]

/-- Settles O56: small numbers and multiples of 2 and 3 directly, the others by the wheel, whose rounds reach 65543. -/
theorem trialDivisionDecidesPrimality : Obligations.TrialDivisionDecidesPrimality := by
  intro n hn
  rw [isPrime]
  split
  case isTrue h1 => exact iff_of_false Bool.false_ne_true fun hp => absurd hp.two_le (by omega)
  case isFalse h1 =>
    split
    case isTrue h3 =>
      obtain rfl | rfl : n = 2 ∨ n = 3 := by omega
      · exact iff_of_true rfl Nat.prime_two
      · exact iff_of_true rfl Nat.prime_three
    case isFalse h3 =>
      split
      case isTrue hdvd =>
        exact iff_of_false Bool.false_ne_true
          (not_prime_of_dvd_or_dvd (factorTest_iff.mp hdvd) le_rfl (by omega) (by omega))
      case isFalse hdvd =>
        obtain ⟨hodd, hthree⟩ := not_or.mp (mt factorTest_iff.mpr hdvd)
        exact wheelLoop_eq_true_iff hodd hthree 10923 rfl (five_le_minFac (by omega) hodd hthree) (by omega)

/-! ## The symmetric mode (R174) -/

theorem xorBytes_comm (x y : List Byte) : xorBytes x y = xorBytes y x :=
  List.zipWith_comm_of_comm BitVec.xor_comm

theorem xorBytes_length (x y : List Byte) : (xorBytes x y).length = min x.length y.length := List.length_zipWith

/-- Bytewise exclusive or with the same bytes twice gives back what these reach over. -/
theorem xorBytes_xorBytes_cancel {x k : List Byte} (h : x.length ≤ k.length) : xorBytes (xorBytes x k) k = x := by
  induction x generalizing k with
  | nil => rfl
  | cons a x ih =>
    cases k with
    | nil => simp at h
    | cons b k =>
      have hbyte : a ^^^ b ^^^ b = a := by rw [BitVec.xor_assoc, BitVec.xor_self, BitVec.xor_zero]
      exact congrArg₂ List.cons hbyte (ih (Nat.le_of_succ_le_succ h))

/-- The ciphertext and the decoy key when nothing is stretched: the key cut and the decoy padded to the plaintext. -/
theorem symmetricMode_of_long_key {plaintext key decoy : List Byte} (hk : plaintext.length ≤ key.length)
    (hd : decoy.length ≤ plaintext.length) :
    symmetricMode plaintext key decoy =
      some (xorBytes plaintext (key.take plaintext.length),
        xorBytes (decoy ++ List.replicate (plaintext.length - decoy.length) 0x20#8)
          (xorBytes plaintext (key.take plaintext.length))) := by
  have hlen : (key.take plaintext.length).length = plaintext.length := List.length_take_of_le hk
  rw [symmetricMode, fitKey, if_pos hk, Option.bind_some, hlen, if_pos hd]

/-- Settles O57: the decoy key is the padded decoy with the ciphertext over it, as the ciphertext is the plaintext with the
key over it. -/
theorem symmetricModeOpensBothWays : Obligations.SymmetricModeOpensBothWays := by
  intro plaintext key decoy hk hd
  have hlen : (key.take plaintext.length).length = plaintext.length := List.length_take_of_le hk
  refine ⟨_, _, symmetricMode_of_long_key hk hd, xorBytes_xorBytes_cancel hlen.ge, ?_⟩
  rw [xorBytes_comm]
  refine xorBytes_xorBytes_cancel ?_
  rw [xorBytes_length, hlen, Nat.min_self, List.length_append, List.length_replicate, Nat.add_sub_of_le hd]

end Sys2Proof.Machine
end

section
/-!
SUPPORT. The families of 60_exceptions.md and 70_reset_and_hazards.md: what a command that raises an error has written (R182,
R189), what `DECODE` does to the codeword (R216), and a whole run of the host's accesses (R225).
-/

namespace Sys2Proof.Machine

open Sys2Proof.Safety

/-! ## A command that ends in an error (60_exceptions.md R182) -/

/-- A command that ends with an error code ended in `raise`; `SRESET` never does, for it clears `ERRCODE`. -/
theorem exec_error {i : Instr} {s t : State} (h : exec i s = .next t) (hcode : t.errcode ≠ 0#8) :
    ∃ x u, CommandBody s i (some x) u ∧ t = raise (some i) x u := by
  have hi : i ≠ .sreset := by
    rintro rfl
    exact hcode (execSreset_cases h ▸ rfl)
  obtain ⟨o, u, hu, rfl⟩ := exec_body h hi
  cases o with
  | none => exact absurd rfl hcode
  | some x => exact ⟨x, u, hu, rfl⟩

/-- A command that ends without an error code leaves the log alone. -/
theorem exec_errlog_of_no_error {i : Instr} {s t : State} (h : exec i s = .next t) (hcode : t.errcode = 0#8)
    (hi : i ≠ .sreset) : t.errlog = s.errlog := by
  obtain ⟨o, u, hu, rfl⟩ := exec_body h hi
  cases o with
  | none => exact (complete_errlog u).trans (commandBody_errlog hu)
  | some x => exact absurd hcode (errcode_ne_zero x)

/-- The log bit of an error, from its code as `ERRCODE` holds it (10_state.md R14). -/
theorem logBit_eq_shift_errcode (x : ErrorKind) : x.logBit = 1#32 <<< (x.errcode.toNat - 1) := by
  cases x <;> rfl

/-- Code 9, `BusError`, is of an access and never of a command (60_exceptions.md R192). -/
theorem errcode_toNat_range {x : ErrorKind} (h : x ≠ .busError) : 1 ≤ x.errcode.toNat ∧ x.errcode.toNat ≤ 8 := by
  cases x with
  | busError => exact absurd rfl h
  | _ => decide

theorem raise_some_flag (i : Instr) (x : ErrorKind) (s : State) :
    (raise (some i) x s).flag = if i = .qrtest ∨ i = .decode then false else s.flag := by
  cases i <;> rfl

/-- A command that raises an error has not written `FLAG` before. -/
theorem commandBody_error_flag {i : Instr} {x : ErrorKind} {s u : State} (h : CommandBody s i (some x) u) :
    u.flag = s.flag := by
  cases h <;> rfl

/-- Only a rejected `KEYLOAD` and a `DECODE` with `InversionFailed` have written anything when they raise their error. -/
theorem commandBody_error_eq {i : Instr} {x : ErrorKind} {s u : State} (h : CommandBody s i (some x) u)
    (hkey : i ∉ [Instr.keyloadA, .keyloadB]) (hdec : ¬ (i = .decode ∧ x = .inversionFailed)) : u = s := by
  cases h with
  | keyRejected hi => exact absurd hi hkey
  | inversionFailed => exact absurd ⟨rfl, rfl⟩ hdec
  | refused => rfl

theorem commandBody_keyload_error_eq {i : Instr} {x : ErrorKind} {s u : State} (h : CommandBody s i (some x) u)
    (hi : i ∈ [Instr.keyloadA, .keyloadB]) : u = invalidateKey s := by
  cases h with
  | keyRejected => rfl
  | inversionFailed => simp at hi
  | refused hx => exact absurd hi hx.2.1

/-- Of the errors of `DECODE`, the one with code 3 comes after the valid flags are consumed (44_codec.md R138). -/
theorem commandBody_inversionFailed {s u : State} (h : CommandBody s .decode (some .inversionFailed) u) :
    u = { s with cur := u.cur, stepReg := u.stepReg, cwvx := false, cwvp := false } := by
  cases h with
  | inversionFailed => rfl
  | refused hx => exact absurd ⟨rfl, rfl⟩ hx.2.2

theorem errcode_eq_three_iff (x : ErrorKind) : x.errcode = 3#8 ↔ x = .inversionFailed := by
  cases x <;> decide

/-- Settles O47: an error is a `raise` (`exec_error`), and before it only the two bodies the rule names have written. -/
theorem errorsArePrecise : Obligations.ErrorsArePrecise := by
  refine ⟨fun i s t h hcode => ?_, fun i s t h hcode hkey hdec => ?_, fun i s t h hcode hi => ?_,
    fun s t h hcode => ?_, fun i s t => exec_errlog_of_no_error⟩
  · obtain ⟨x, u, hu, rfl⟩ := exec_error h hcode
    obtain ⟨hlow, hhigh⟩ := errcode_toNat_range (commandErrors_ne x (commandBody_error hu)).2
    refine ⟨hlow, hhigh, rfl, ?_, ?_⟩
    · rw [raise_errlog, raise_errcode, commandBody_errlog hu, logBit_eq_shift_errcode]
    · rw [raise_some_flag, commandBody_error_flag hu]
  · obtain ⟨x, u, hu, rfl⟩ := exec_error h hcode
    rw [raise_errcode, errcode_eq_three_iff] at hdec
    rw [commandBody_error_eq hu hkey hdec]
    rfl
  · obtain ⟨x, u, hu, rfl⟩ := exec_error h hcode
    rw [commandBody_keyload_error_eq hu hi]
    obtain rfl | rfl : i = .keyloadA ∨ i = .keyloadB := by simpa using hi
    all_goals rfl
  · obtain ⟨x, u, hu, rfl⟩ := exec_error h (hcode ▸ by decide)
    obtain rfl := (errcode_eq_three_iff x).mp hcode
    rw [commandBody_inversionFailed hu]
    rfl

/-- Settles O39: each command that needs a key raises `NoKey` without one (`exec_of_no_key`), `QRTEST` also under a variant (b)
key (`exec_qrtest_of_b`); `raise` of that error has just the stated effect. -/
theorem keyUsersRaiseNoKey : Obligations.KeyUsersRaiseNoKey := by
  refine ⟨fun i s hi hk => ?_, fun s hk => ?_, fun s h => ?_⟩
  · obtain rfl | rfl | rfl : i = .pfwd ∨ i = .pinv ∨ i = .encode := by simpa using hi
    all_goals exact exec_of_no_key rfl hk
  · exact exec_of_no_key rfl hk
  · rcases h with hk | hv
    · exact exec_of_no_key rfl hk
    · exact exec_qrtest_of_b hv

/-! ## `DECODE` and the codeword (70_reset_and_hazards.md R216) -/

@[simp] theorem decodeCommit_cwX (s : State) (d : DecodeEnd) : (decodeCommit s d).cwX = s.cwX := by cases d <;> rfl
@[simp] theorem decodeCommit_cwP (s : State) (d : DecodeEnd) : (decodeCommit s d).cwP = s.cwP := by cases d <;> rfl
@[simp] theorem decodeCommit_cwvx (s : State) (d : DecodeEnd) : (decodeCommit s d).cwvx = s.cwvx := by cases d <;> rfl
@[simp] theorem decodeCommit_cwvp (s : State) (d : DecodeEnd) : (decodeCommit s d).cwvp = s.cwvp := by cases d <;> rfl

/-- Settles O34: the two refusals are a `raise`, which keeps all of these registers; past the checks the flags are consumed and
`decodeCommit` leaves them and the codeword alone. -/
theorem decodeConsumesTheCodeword : Obligations.DecodeConsumesTheCodeword := by
  intro s t h
  rcases execDecode_cases h with ⟨hk, rfl⟩ | ⟨-, hcw, rfl⟩ | ⟨hk, hcw, rfl⟩
  · exact ⟨rfl, rfl, fun hk' => absurd (hk.symm.trans hk') Bool.false_ne_true, fun _ => ⟨rfl, rfl, rfl, rfl⟩⟩
  · exact ⟨rfl, rfl, fun _ hx hp => by simp [hx, hp] at hcw, fun _ => ⟨rfl, rfl, rfl, rfl⟩⟩
  · obtain ⟨hx, hp⟩ := (Bool.and_eq_true _ _).mp hcw
    refine ⟨decodeCommit_cwX _ _, decodeCommit_cwP _ _, fun _ _ _ => ⟨decodeCommit_cwvx _ _, decodeCommit_cwvp _ _⟩,
      fun hrefused => ?_⟩
    simp [hk, hx, hp] at hrefused

/-! ## A whole run (70_reset_and_hazards.md R225) -/

/-- `k` steps always have an end, and they use up the first `k` of the host's accesses. -/
theorem run_completes (k : Nat) (s : State) : ∃ t, core.run k s = .next t ∧ t.pending = s.pending.drop k := by
  induction k generalizing s with
  | zero => exact ⟨s, rfl, rfl⟩
  | succ k ih =>
    obtain ⟨u, hu, hpending⟩ := everyStepCompletes.2 s
    obtain ⟨t, ht, htail⟩ := ih u
    exact ⟨t, (run_succ hu k).trans ht, by rw [htail, hpending, List.drop_tail]⟩

/-- A run goes on from the state its first `k` steps lead to. -/
theorem run_add {k : Nat} {s t : State} (h : core.run k s = .next t) (j : Nat) :
    core.run (k + j) s = core.run j t := by
  induction k generalizing s with
  | zero =>
    injection h with h
    rw [Nat.zero_add, h]
  | succ k ih =>
    obtain ⟨u, hu, -⟩ := everyStepCompletes.2 s
    rw [Nat.succ_add, run_succ hu]
    exact ih ((run_succ hu k).symm.trans h)

/-- Settles O50: the run uses up every access (`run_completes`), and from there on it waits (`run_idle`). -/
theorem runEndsWithItsLastAccess : Obligations.RunEndsWithItsLastAccess := by
  intro s
  obtain ⟨t, ht, hpending⟩ := run_completes s.pending.length s
  rw [List.drop_length] at hpending
  exact ⟨t, ht, hpending, fun k => (run_add ht k).trans (run_idle hpending k)⟩

/-- `ERRLOG` is 0 after `k` steps. -/
def LogEmptyAfter (k : Nat) (s : State) : Prop := ∃ t, core.run k s = .next t ∧ t.errlog = 0#32

theorem logEmptyAfter_zero_iff (s : State) : LogEmptyAfter 0 s ↔ s.errlog = 0#32 := by
  constructor
  · rintro ⟨t, ht, hlog⟩
    injection ht with ht
    rwa [ht]
  · exact fun hlog => ⟨s, run_zero s, hlog⟩

theorem logEmptyAfter_succ_iff {s t : State} (h : step s = .next t) (k : Nat) :
    LogEmptyAfter (k + 1) s ↔ LogEmptyAfter k t := by
  rw [LogEmptyAfter, LogEmptyAfter, run_succ h]

/-- The log is empty throughout `n + 1` steps when it is empty before them and throughout the `n` after the first. -/
theorem logEmptyThroughout_succ_iff {s t : State} (h : step s = .next t) (n : Nat) :
    (∀ k ≤ n + 1, LogEmptyAfter k s) ↔ s.errlog = 0#32 ∧ ∀ k ≤ n, LogEmptyAfter k t := by
  simp only [← Nat.lt_succ_iff, Nat.forall_lt_succ_left, logEmptyAfter_zero_iff, logEmptyAfter_succ_iff h]

/-- A log that ends empty and loses no bit on the way was empty all along. The case of the first step: the log is empty after
it, so the bits it clears are all those set before it. -/
theorem logEmptyThroughout_iff (n : Nat) (s : State) :
    LogEmptyAfter n s ∧ logBitsKept n s = true ↔ ∀ k ≤ n, LogEmptyAfter k s := by
  induction n generalizing s with
  | zero => simp
  | succ n ih =>
    obtain ⟨t, ht, -⟩ := everyStepCompletes.2 s
    rw [logEmptyThroughout_succ_iff ht, ← ih t, logEmptyAfter_succ_iff ht, logBitsKept_succ ht, Bool.and_eq_true,
      beq_iff_eq]
    have hkept (hall : LogEmptyAfter n t ∧ logBitsKept n t = true) :
        s.errlog &&& ~~~t.errlog = 0#32 ↔ s.errlog = 0#32 := by
      have hempty : t.errlog = 0#32 := (logEmptyAfter_zero_iff t).mp ((ih t).mp hall 0 n.zero_le)
      rw [hempty, BitVec.not_zero, BitVec.and_allOnes]
    constructor
    · rintro ⟨hend, hbits, hrest⟩
      exact ⟨(hkept ⟨hend, hrest⟩).mp hbits, hend, hrest⟩
    · rintro ⟨hs, hend, hrest⟩
      exact ⟨hend, (hkept ⟨hend, hrest⟩).mpr hs, hrest⟩

/-- Settles O59: `logEmptyThroughout_iff` for the run of the pending accesses. -/
theorem cleanRunsNeverLog : Obligations.CleanRunsNeverLog :=
  fun s => logEmptyThroughout_iff s.pending.length s

end Sys2Proof.Machine
end
